-- ==== Sys2Proof/Word.lean ====
section
/-! DEFINITION. The machine's one word: the byte of 00_scope.md rules R8 and R9. -/

namespace Sys2Proof

/-- A byte: an unsigned integer 0..255 (00_scope.md R9). Registers, memory cells, opcode bytes and operand bytes
are bytes; no value of this machine is signed. -/
abbrev Byte := BitVec 8

end Sys2Proof
end

