-- ==== Sys2Proof/Syntax.lean ====
section
/-! DEFINITION. The instruction set as syntax: the 13 opcodes of 30_encoding.md rule R62, the four formats of rule
R61, and the ONE inductive of instructions, whose operands are whole bytes (rules R61, R64, R65). -/

namespace Sys2Proof

/-- The four instruction formats (30_encoding.md R61). -/
inductive Format where
  /-- no operand -/
  | N
  /-- one register index byte -/
  | R
  /-- two register index bytes -/
  | RR
  /-- a register index byte, then an immediate byte -/
  | RI
  deriving DecidableEq, Repr

/-- The 13 opcodes, in the order of 30_encoding.md R62. -/
inductive Opcode where
  | hlt | ldi | prn | mul | add | push | pop | call | ret | cmp | jmp | jeq | jne
  deriving DecidableEq, Repr

/-- An instruction: an opcode with its latched operand bytes (30_encoding.md R61, R72; one constructor for each row
of the opcode table). A register operand is the whole byte, as it was fetched: only 0..7 names a register
(R64; `Instr.WellFormed`). -/
inductive Instr where
  /-- HLT (41_system_and_data.md R100) -/
  | hlt
  /-- LDI r, imm (41_system_and_data.md R101) -/
  | ldi (r imm : Byte)
  /-- PRN r (41_system_and_data.md R102) -/
  | prn (r : Byte)
  /-- MUL ra, rb (42_alu.md R112) -/
  | mul (ra rb : Byte)
  /-- ADD ra, rb (42_alu.md R111) -/
  | add (ra rb : Byte)
  /-- PUSH r (43_stack.md R120) -/
  | push (r : Byte)
  /-- POP r (43_stack.md R121) -/
  | pop (r : Byte)
  /-- CALL r (44_control_transfer.md R130) -/
  | call (r : Byte)
  /-- RET (44_control_transfer.md R131) -/
  | ret
  /-- CMP ra, rb (42_alu.md R113) -/
  | cmp (ra rb : Byte)
  /-- JMP r (44_control_transfer.md R132) -/
  | jmp (r : Byte)
  /-- JEQ r (44_control_transfer.md R133) -/
  | jeq (r : Byte)
  /-- JNE r (44_control_transfer.md R134) -/
  | jne (r : Byte)
  deriving DecidableEq, Repr

/-- The opcode of an instruction. -/
def Instr.opcode : Instr → Opcode
  | .hlt => .hlt
  | .ldi _ _ => .ldi
  | .prn _ => .prn
  | .mul _ _ => .mul
  | .add _ _ => .add
  | .push _ => .push
  | .pop _ => .pop
  | .call _ => .call
  | .ret => .ret
  | .cmp _ _ => .cmp
  | .jmp _ => .jmp
  | .jeq _ => .jeq
  | .jne _ => .jne

/-- The operand bytes of an instruction, in encoding order (30_encoding.md R61, R72). -/
def Instr.operands : Instr → List Byte
  | .hlt => []
  | .ldi r imm => [r, imm]
  | .prn r => [r]
  | .mul ra rb => [ra, rb]
  | .add ra rb => [ra, rb]
  | .push r => [r]
  | .pop r => [r]
  | .call r => [r]
  | .ret => []
  | .cmp ra rb => [ra, rb]
  | .jmp r => [r]
  | .jeq r => [r]
  | .jne r => [r]

end Sys2Proof
end

