-- ==== Sys2Proof/WellFormed.lean ====
section
/-! DEFINITION. Which instructions are well-formed: every register operand byte names a register, 0..7
(30_encoding.md rule R64); the immediate of LDI may be any byte (rule R65). -/

namespace Sys2Proof

/-- A byte that names a register (30_encoding.md R64: the whole byte, 0..7). -/
def isReg (b : Byte) : Bool := decide (b.toNat < 8)

/-- The well-formedness check, one line for each instruction. -/
def Instr.wellFormed : Instr → Bool
  | .hlt => true
  | .ldi r _ => isReg r
  | .prn r => isReg r
  | .mul ra rb => isReg ra && isReg rb
  | .add ra rb => isReg ra && isReg rb
  | .push r => isReg r
  | .pop r => isReg r
  | .call r => isReg r
  | .ret => true
  | .cmp ra rb => isReg ra && isReg rb
  | .jmp r => isReg r
  | .jeq r => isReg r
  | .jne r => isReg r

/-- An instruction whose register operands all name registers. -/
abbrev Instr.WellFormed (i : Instr) : Prop := i.wellFormed = true

end Sys2Proof
end

