-- ==== Sys2Proof/Decode.lean ====
section
/-! DEFINITION. Decoding, total on any bytes and rejecting by name (30_encoding.md rules R60 to R70), and after it the
encoder, written from the same table of opcode bytes. -/

namespace Sys2Proof

/-! ## The fields of the opcode byte `AABCDDDD` (30_encoding.md R60) -/

/-- Field AA, bits 7-6: the number of operand bytes. -/
def operandCount (ir : Byte) : Nat := (ir.extractLsb 7 6).toNat

/-- Field B, bit 5: informational, read by nothing in the machine (30_encoding.md R67). -/
def aluBit (ir : Byte) : Bool := ir.getLsbD 5

/-- Field C, bit 4: the instruction sets PC directly. -/
def setsPc (ir : Byte) : Bool := ir.getLsbD 4

/-- Field DDDD, bits 3-0: informational, read by nothing in the machine (30_encoding.md R63). -/
def opcodeId (ir : Byte) : BitVec 4 := ir.extractLsb 3 0

/-! ## The opcode map (30_encoding.md R62) -/

/-- The opcode byte of each opcode, from the binary column of 30_encoding.md R62. -/
def Opcode.byte : Opcode → Byte
  | .hlt => 0b00000001
  | .ldi => 0b10000010
  | .prn => 0b01000111
  | .mul => 0b10100010
  | .add => 0b10100000
  | .push => 0b01000101
  | .pop => 0b01000110
  | .call => 0b01010000
  | .ret => 0b00010001
  | .cmp => 0b10100111
  | .jmp => 0b01010100
  | .jeq => 0b01010101
  | .jne => 0b01010110

/-- The format of each opcode, from the format column of 30_encoding.md R62. -/
def Opcode.format : Opcode → Format
  | .hlt => .N
  | .ldi => .RI
  | .prn => .R
  | .mul => .RR
  | .add => .RR
  | .push => .R
  | .pop => .R
  | .call => .R
  | .ret => .N
  | .cmp => .RR
  | .jmp => .R
  | .jeq => .R
  | .jne => .R

/-- All opcodes, in the order of 30_encoding.md R62. -/
def Opcode.all : List Opcode :=
  [.hlt, .ldi, .prn, .mul, .add, .push, .pop, .call, .ret, .cmp, .jmp, .jeq, .jne]

/-- The opcode a byte names, by the whole byte (30_encoding.md R63); `none` for the 243 illegal bytes (R66). -/
def lookup (ir : Byte) : Option Opcode := Opcode.all.find? fun o => o.byte == ir

/-! ## Decoding (30_encoding.md R70) -/

/-- Why bytes are no instruction. -/
inductive DecodeError where
  /-- the first byte is none of the 13 opcodes (30_encoding.md R66) -/
  | unknownOpcode (ir : Byte)
  /-- the bytes end before the instruction does; `given` bytes were given (raised only by `decode` on a list that is
  too short: a fetch finds the missing byte itself, 40_execution_cycle.md R83) -/
  | truncated (given : Nat)
  /-- a register operand byte names no register (30_encoding.md R64) -/
  | registerIndex (v : Byte)
  deriving DecidableEq, Repr

/-- The instruction of an opcode and its operand bytes (an opcode with fewer operands ignores the rest). -/
def Opcode.assemble (o : Opcode) (op1 op2 : Byte) : Instr :=
  match o with
  | .hlt => .hlt
  | .ldi => .ldi op1 op2
  | .prn => .prn op1
  | .mul => .mul op1 op2
  | .add => .add op1 op2
  | .push => .push op1
  | .pop => .pop op1
  | .call => .call op1
  | .ret => .ret
  | .cmp => .cmp op1 op2
  | .jmp => .jmp op1
  | .jeq => .jeq op1
  | .jne => .jne op1

/-- The register operand bytes that the opcode's format makes register indices, in the order in which they are checked
(40_execution_cycle.md R84: op1 for R, RR and RI, then op2 for RR; the immediate of RI is not checked). -/
def Format.registerFields (f : Format) (op1 op2 : Byte) : List Byte :=
  match f with
  | .N => []
  | .R => [op1]
  | .RR => [op1, op2]
  | .RI => [op1]

/-- The first register field that names no register, if any (40_execution_cycle.md R84). -/
def Opcode.badField (o : Opcode) (op1 op2 : Byte) : Option Byte :=
  (o.format.registerFields op1 op2).find? fun b => decide (7 < b.toNat)

/-- Decode an opcode byte with its latched operand bytes: look the byte up (40_execution_cycle.md R82), then check the
register fields (R84). -/
def decodeInstr (ir op1 op2 : Byte) : Except DecodeError Instr :=
  match lookup ir with
  | none => .error (.unknownOpcode ir)
  | some o =>
    match o.badField op1 op2 with
    | some v => .error (.registerIndex v)
    | none => .ok (o.assemble op1 op2)

/-- Decode the instruction at the head of a list of bytes, and give the bytes after it (30_encoding.md R69, R70): the
opcode is looked up before any operand byte is asked for. -/
def decode : List Byte → Except DecodeError (Instr × List Byte)
  | [] => .error (.truncated 0)
  | ir :: rest =>
    match lookup ir with
    | none => .error (.unknownOpcode ir)
    | some _ =>
      if rest.length < operandCount ir then .error (.truncated (rest.length + 1))
      else
        match decodeInstr ir (rest.getD 0 0) (rest.getD 1 0) with
        | .error e => .error e
        | .ok i => .ok (i, rest.drop (operandCount ir))

/-! ## Encoding -/

/-- The operand byte that names register `i` (30_encoding.md R64, R72). -/
def regByte (i : Fin 8) : Byte := BitVec.ofNat 8 i.val

/-- The bytes of an instruction, the opcode first, at increasing addresses (30_encoding.md R61). -/
def encode (i : Instr) : List Byte := i.opcode.byte :: i.operands

/-! ## The opcode table's words -/

/-- The low `nbits` bits of `w` as the three bytes of the longest instruction, the first byte lowest; the bits above
`nbits` are 0. -/
def tableBytes (nbits w : Nat) : List Byte :=
  let v := w % 2 ^ nbits
  [BitVec.ofNat 8 v, BitVec.ofNat 8 (v / 256), BitVec.ofNat 8 (v / 65536)]

/-- The instruction the decoder reads from an instruction whose bits are `w`, numbered as spec/opcode_table.json
numbers them (bit 0 the least significant bit of the first byte). -/
def decodeTableWord (nbits w : Nat) : Option Instr :=
  match decode (tableBytes nbits w) with
  | .ok (i, _) => some i
  | .error _ => none

end Sys2Proof
end

