-- ==== Sys2Proof/Config.lean ====
section
/-! DEFINITION. What is fixed for the machine: the parameters of 00_scope.md rule R8, and the two reset choices the
model makes where the spec gives no register value. There is no free value: the spec's step draws none
(40_execution_cycle.md R90). -/

namespace Sys2Proof

/-- Memory size in bytes, addresses 0..255 (00_scope.md R8). -/
def Config.memSize : Nat := 256

/-- The register that PUSH, POP, CALL and RET use as the stack pointer (00_scope.md R8, 10_state.md R23). -/
abbrev Config.spIndex : Fin 8 := 7

/-- The stack pointer's reset value 0xF4 (00_scope.md R8, 10_state.md R23). -/
def Config.spReset : Byte := 0xF4

/-- The reset value of the program counter (10_state.md R24, R34). -/
def Config.pcReset : Nat := 0

/-- The longest launch image (00_scope.md R8, decision D19). -/
def Config.imageMax : Nat := 256

/-- DESIGN CHOICE, unsafe (log entry 1): the value R0..R6 hold at reset. The spec gives none (10_state.md R22). -/
def Config.generalReset : Byte := 0

/-- DESIGN CHOICE, unsafe (log entry 1): the marks of R0..R6 at reset. The spec leaves them undefined
(10_state.md R22, R34), which is `State.resetUndefined`; in `State.reset` every register holds a value. -/
def Config.generalResetDefined : Bool := true

end Sys2Proof
end

