-- ==== Sys2Proof/Machine/State.lean ====
section
/-! DEFINITION. The whole state of the machine as plain data (10_state.md rules R20 to R35), its reset, and the reasons
a step can stop. -/

namespace Sys2Proof.Machine

/-- One general register (10_state.md R20, R22): it always holds a byte, and carries the spec's mark that says whether
it is defined. A read of a register that is not defined raises UninitializedRead; no register is undefined in
`State.reset` (log entries 1 and 2). -/
structure RegCell where
  /-- the byte held -/
  value : Byte
  /-- the spec's defined/undefined status (10_state.md R22, R31) -/
  defined : Bool
  deriving DecidableEq, Repr

/-- The flags register FL (10_state.md R26): exactly one of four values. -/
inductive FlagState where
  /-- NONE: no comparison yet -/
  | unset
  /-- E -/
  | equal
  /-- G -/
  | greater
  /-- L -/
  | less
  deriving DecidableEq, Repr

/-- The sub-kinds of OutOfBounds (10_state.md R28, 60_exceptions.md R150). -/
inductive BoundsKind where
  | fetchAddress | operandAddress | registerIndex | stackPointer | returnAddress
  deriving DecidableEq, Repr

/-- The sub-kinds of UninitializedRead (10_state.md R28, 60_exceptions.md R150). -/
inductive UninitKind where
  | register | memory
  deriving DecidableEq, Repr

/-- The kind of a fault with its sub-kind (10_state.md R28, 60_exceptions.md R150). -/
inductive FaultKind where
  | unknownOpcode
  | outOfBounds (sub : BoundsKind)
  | unsupportedOperation
  | uninitializedRead (sub : UninitKind)
  deriving DecidableEq, Repr

/-- A fault record (10_state.md R28). -/
structure FaultRecord where
  /-- kind and sub-kind -/
  kind : FaultKind
  /-- the address of the opcode byte of the faulting instruction -/
  pc : Nat
  /-- the offending opcode byte, address, register index or computed value -/
  info : Int
  deriving DecidableEq, Repr

/-- The run status (10_state.md R27). -/
inductive Status where
  | running
  | halted
  | faulted (record : FaultRecord)
  deriving DecidableEq, Repr

/-- Memory as a list of (address, byte) pairs (20_memory.md R42): the defined bytes, and no entry for an undefined one.
Canonical form: `Memory.wf`. -/
abbrev Memory := List Host.Cell

/-- The canonical form of memory: addresses strictly rising from `start`, each below 256. (No listed byte can equal what
an unlisted address reads as, since that is no byte: 20_memory.md R42, log entry 3.) -/
def Memory.wfFrom (start : Nat) : Memory → Bool
  | [] => true
  | (a, _) :: rest => decide (start ≤ a) && decide (a < Config.memSize) && Memory.wfFrom (a + 1) rest

/-- Memory is in canonical form. -/
def Memory.wf (m : Memory) : Bool := Memory.wfFrom 0 m

/-- The whole state (10_state.md: the record of its first table). -/
structure State where
  /-- R0..R7; R7 is the stack pointer (10_state.md R20-R23) -/
  regs : Vector RegCell 8
  /-- the program counter, an integer 0..258 (10_state.md R24) -/
  pc : Nat
  /-- the flags register (10_state.md R26) -/
  fl : FlagState
  /-- the run status, with the fault record when faulted (10_state.md R27-R28) -/
  status : Status
  /-- the 256 bytes of memory (10_state.md R33) -/
  mem : Memory
  /-- the bytes PRN has emitted, in program order (10_state.md R32) -/
  out : List Byte
  deriving DecidableEq, Repr

/-- Why a step answers no next state. Both are raised by `step` alone, from a terminal status (40_execution_cycle.md
R80: "When status is Halted or Faulted(record) no step is enabled"; log entry 4). Safe: nothing is claimed of a state after it. The
faults of 60_exceptions.md R150 are NEXT states whose status is Faulted, as R87 says, and not constructors here. -/
inductive Fault where
  /-- raised by `step` when the status is Halted (10_state.md R27); safe -/
  | halted
  /-- raised by `step` when the status is Faulted, with its record (10_state.md R27-R28); safe -/
  | faulted (record : FaultRecord)
  deriving DecidableEq, Repr

/-- Why an instruction has no meaning. -/
inductive Refusal where
  /-- raised by a refused arm of `exec`; safe. No arm is refused in this model. -/
  | notModelled (mnemonic : String)
  deriving DecidableEq, Repr

/-- R0..R6 at reset (DESIGN CHOICE, unsafe, log entry 1). -/
def RegCell.generalReset : RegCell := ⟨Config.generalReset, Config.generalResetDefined⟩

/-- R0..R6 at the spec's own reset: undefined (10_state.md R22, R34). The byte is never read. -/
def RegCell.undefined : RegCell := ⟨Config.generalReset, false⟩

/-- SP at reset: 0xF4, defined (10_state.md R22, R23). -/
def RegCell.spReset : RegCell := ⟨Config.spReset, true⟩

/-- The machine right after reset (10_state.md R34, 70_reset_and_hazards.md R180), with nothing loaded: pc 0, SP 0xF4,
FL NONE, Running, nothing emitted, no byte of memory defined. R0..R6 hold the model's reset value (log entry 1). -/
def State.reset : State where
  regs := #v[.generalReset, .generalReset, .generalReset, .generalReset, .generalReset, .generalReset, .generalReset,
    .spReset]
  pc := Config.pcReset
  fl := .unset
  status := .running
  mem := []
  out := []

/-- The spec's reset to the letter (10_state.md R34): as `State.reset`, but R0..R6 are undefined, so a read of one
before any write raises UninitializedRead (R22). Claims that must not rest on log entry 1 start here. -/
def State.resetUndefined : State :=
  { State.reset with
    regs := #v[.undefined, .undefined, .undefined, .undefined, .undefined, .undefined, .undefined, .spReset] }

end Sys2Proof.Machine
end

