-- ==== Sys2Proof/Machine/Ops.lean ====
section
/-! DEFINITION. The named operations over memory and registers, the advance of the program counter, and TAKING A FAULT as
the one shared operation `takeFault` (40_execution_cycle.md rule R87). There is no return from a fault
(60_exceptions.md rule R156), so no operation for one. -/

namespace Sys2Proof.Machine

/-! ## Memory (20_memory.md R40 to R43) -/

/-- What an address that memory does not list reads as: no byte, the spec's "undefined" (20_memory.md R42; log
entry 3). -/
def Memory.unlisted : Option Byte := none

/-- The byte at an address, or `none` where the byte is undefined. -/
def Memory.get : Memory → Nat → Option Byte
  | [], _ => Memory.unlisted
  | (b, v) :: rest, a => if b = a then some v else Memory.get rest a

/-- Memory with the byte at `a` replaced by `v` and no other byte changed (20_memory.md R41), kept sorted. -/
def Memory.set : Memory → Nat → Byte → Memory
  | [], a, v => [(a, v)]
  | (b, w) :: rest, a, v =>
    if a < b then (a, v) :: (b, w) :: rest
    else if a = b then (a, v) :: rest
    else (b, w) :: Memory.set rest a v

/-! ## Raising a fault (00_scope.md R10: `raise K(info)`) -/

/-- A fault that a check has raised, before it is committed: its kind and its info (60_exceptions.md R150). -/
structure Raise where
  kind : FaultKind
  info : Int
  deriving DecidableEq, Repr

/-- UnknownOpcode(byte), code 1 (60_exceptions.md R150). -/
def raiseUnknownOpcode (ir : Byte) : Raise := ⟨.unknownOpcode, (ir.toNat : Int)⟩

/-- OutOfBounds(FetchAddress, pc), code 2.1 (60_exceptions.md R150). -/
def raiseFetchAddress (a : Nat) : Raise := ⟨.outOfBounds .fetchAddress, (a : Int)⟩

/-- OutOfBounds(OperandAddress, address), code 2.2 (60_exceptions.md R150). -/
def raiseOperandAddress (a : Nat) : Raise := ⟨.outOfBounds .operandAddress, (a : Int)⟩

/-- OutOfBounds(RegisterIndex, operand byte), code 2.3 (60_exceptions.md R150). -/
def raiseRegisterIndex (v : Byte) : Raise := ⟨.outOfBounds .registerIndex, (v.toNat : Int)⟩

/-- OutOfBounds(StackPointer, the SP value that would result), code 2.4 (60_exceptions.md R150). -/
def raiseStackPointer (sp : Int) : Raise := ⟨.outOfBounds .stackPointer, sp⟩

/-- OutOfBounds(ReturnAddress, the return address), code 2.5 (60_exceptions.md R150). -/
def raiseReturnAddress (a : Nat) : Raise := ⟨.outOfBounds .returnAddress, (a : Int)⟩

/-- UnsupportedOperation(the requested operation), code 3 (60_exceptions.md R150). -/
def raiseUnsupportedOperation (code : Nat) : Raise := ⟨.unsupportedOperation, (code : Int)⟩

/-- UninitializedRead(Register i), code 4.1 (60_exceptions.md R150). -/
def raiseUninitRegister (i : Fin 8) : Raise := ⟨.uninitializedRead .register, (i.val : Int)⟩

/-- UninitializedRead(Memory a), code 4.2 (60_exceptions.md R150). -/
def raiseUninitMemory (a : Byte) : Raise := ⟨.uninitializedRead .memory, (a.toNat : Int)⟩

/-- The fault code of a kind, major and minor part (60_exceptions.md R150: labels only, no program reads them; log entry 11). -/
def faultCode : FaultKind → Nat × Nat
  | .unknownOpcode => (1, 0)
  | .outOfBounds .fetchAddress => (2, 1)
  | .outOfBounds .operandAddress => (2, 2)
  | .outOfBounds .registerIndex => (2, 3)
  | .outOfBounds .stackPointer => (2, 4)
  | .outOfBounds .returnAddress => (2, 5)
  | .unsupportedOperation => (3, 0)
  | .uninitializedRead .register => (4, 1)
  | .uninitializedRead .memory => (4, 2)

/-! ## Reads that can raise -/

/-- `MemRead(a, 1)` (20_memory.md R41, R42): the byte at `a`, or UninitializedRead(Memory a). The address is a byte, so
it is in range; whoever forms an address checks it first. -/
def memRead (s : State) (a : Byte) : Except Raise Byte :=
  match Memory.get s.mem a.toNat with
  | some v => .ok v
  | none => .error (raiseUninitMemory a)

/-- A read `x[i]` (00_scope.md R10, 10_state.md R22): the register's byte, or UninitializedRead(Register i) where the
register is undefined. -/
def readReg (s : State) (i : Fin 8) : Except Raise Byte :=
  if s.regs[i].defined then .ok s.regs[i].value else .error (raiseUninitRegister i)

/-! ## Writes, which cannot raise -/

/-- `MemWrite(a, 1, v)` (20_memory.md R41, R42). -/
def memWrite (s : State) (a v : Byte) : State := { s with mem := Memory.set s.mem a.toNat v }

/-- `x[i] <- v` (00_scope.md R10): the register then holds `v` and is defined (10_state.md R22). No register is
hard-wired, and R7 is written like any other (10_state.md R20, R23). -/
def writeReg (s : State) (i : Fin 8) (v : Byte) : State := { s with regs := s.regs.set i.val ⟨v, true⟩ }

/-- `pc <- t` (00_scope.md R10). -/
def setPc (s : State) (t : Nat) : State := { s with pc := t }

/-- `FL <- f` (00_scope.md R10). -/
def setFl (s : State) (f : FlagState) : State := { s with fl := f }

/-- `Out(v)`: one byte appended to the output (00_scope.md R10, 10_state.md R32). -/
def emit (s : State) (v : Byte) : State := { s with out := s.out ++ [v] }

/-- `status <- Halted` (00_scope.md R10). -/
def halt (s : State) : State := { s with status := .halted }

/-! ## Ending an instruction -/

/-- The advance of the cycle (40_execution_cycle.md R85): where bit C of the opcode byte is 0, pc moves past the opcode
and as many operand bytes as field AA says; where it is 1, pc stays as the rule assigned it. -/
def advance (ir : Byte) (s : State) : State :=
  if setsPc ir then s else setPc s (s.pc + 1 + operandCount ir)

/-- TAKING A FAULT, whole (40_execution_cycle.md R87, 60_exceptions.md R155): the status becomes Faulted with the record
of the fault; the pc stays at the faulting instruction's opcode byte, and nothing else is touched. -/
def takeFault (s : State) (r : Raise) : State := { s with status := .faulted ⟨r.kind, s.pc, r.info⟩ }

/-- The end of an instruction that ran in `s`: its committed state, or the fault taken in `s` (00_scope.md R12: an
instruction commits all of its effects or raises a fault and commits none). -/
def settle (s : State) : Except Raise State → Host.Outcome State Fault Refusal
  | .ok t => .next t
  | .error r => .next (takeFault s r)

end Sys2Proof.Machine
end

