-- ==== Sys2Proof/Machine/Operands.lean ====
section
/-! DEFINITION. The operand forms of 30_encoding.md rules R61, R64 and R65: a register operand byte names a register or
raises OutOfBounds(RegisterIndex); the immediate is the byte itself. -/

namespace Sys2Proof.Machine

/-- A register operand byte as an index into the register file (30_encoding.md R64): the whole byte, not its low three
bits; 8..255 raises OutOfBounds(RegisterIndex). -/
def regField (b : Byte) : Except Raise (Fin 8) :=
  if h : b.toNat < 8 then .ok ⟨b.toNat, h⟩ else .error (raiseRegisterIndex b)

/-- Two register operand bytes, op1 checked before op2 (40_execution_cycle.md R84). -/
def regFields (b1 b2 : Byte) : Except Raise (Fin 8 × Fin 8) := do
  let i ← regField b1
  let j ← regField b2
  return (i, j)

/-- The value of the immediate operand of format RI: the byte as it stands, unsigned (30_encoding.md R65). -/
def immField (b : Byte) : Byte := b

/-- `x[i]` as it reads after SP has become `sp'` and before anything else is written (43_stack.md R120,
44_control_transfer.md R130: "sp' if op1 = 7 else x[op1]"). -/
def readRegAfterPush (s : State) (i : Fin 8) (sp' : Byte) : Except Raise Byte :=
  if i = Config.spIndex then .ok sp' else readReg s i

end Sys2Proof.Machine
end

