-- ==== Sys2Proof/Machine/Flags.lean ====
section
/-! DEFINITION. The flags register's operations (10_state.md rule R26): the comparison that writes it, the one reading
that instructions make of it, and the byte an outside observer sees. ADD and MUL compute no flag. -/

namespace Sys2Proof.Machine

/-- `compare(p, q)` (42_alu.md R110, R113): E if p = q, G if p > q, L otherwise, as integers 0..255. -/
def compareFlags (p q : Byte) : FlagState :=
  if p.toNat = q.toNat then .equal else if p.toNat > q.toNat then .greater else .less

/-- `FL.E`, the source's `is_equal()`: all that JEQ and JNE read of the flags (10_state.md R26). -/
def isEqual (f : FlagState) : Bool :=
  match f with
  | .equal => true
  | .unset => false
  | .greater => false
  | .less => false

/-- FL as the byte an observer outside the core sees: E at bit 0, G at bit 1, L at bit 2 (10_state.md R26, decision
D13). No instruction reads it. -/
def flagByte (f : FlagState) : Byte :=
  match f with
  | .unset => 0
  | .equal => 1
  | .greater => 2
  | .less => 4

end Sys2Proof.Machine
end

