-- ==== Sys2Proof/Machine/Alu.lean ====
section
/-! DEFINITION. The ALU (42_alu.md rules R110 and R114) and the three instructions that use it: ADD, MUL and CMP
(rules R111 to R113). -/

namespace Sys2Proof.Machine

/-- An ALU request (42_alu.md R110). -/
inductive AluOp where
  | add
  | mul
  | cmp
  /-- any other operation, by a number; no instruction requests one (42_alu.md R110, decision D18; log entry 12) -/
  | other (code : Nat)
  deriving DecidableEq, Repr

/-- What the ALU returns: a byte, or a flags value for the comparison (42_alu.md R110). -/
inductive AluResult where
  | byte (v : Byte)
  | flags (f : FlagState)
  deriving DecidableEq, Repr

/-- The ALU (42_alu.md R110, R114): unsigned 8-bit add and multiply, reduced modulo 256 from the exact integer result,
and the comparison; any other request raises UnsupportedOperation. -/
def alu (op : AluOp) (p q : Byte) : Except Raise AluResult :=
  match op with
  | .add => .ok (.byte (BitVec.ofNat 8 ((p.toNat + q.toNat) % 256)))
  | .mul => .ok (.byte (BitVec.ofNat 8 ((p.toNat * q.toNat) % 256)))
  | .cmp => .ok (.flags (compareFlags p q))
  | .other code => .error (raiseUnsupportedOperation code)

/-- Where an ALU result goes: a byte to the destination register (42_alu.md R111, R112), a flags value to FL (R113). -/
def aluCommit (s : State) (dst : Fin 8) (r : AluResult) : State :=
  match r with
  | .byte v => writeReg s dst v
  | .flags f => setFl s f

/-- The shared shape of ADD, MUL and CMP (42_alu.md R111 to R113): check both fields, read op1 then op2, ask the ALU,
commit, advance. -/
def execAlu (o : Opcode) (op : AluOp) (ra rb : Byte) (s : State) : Host.Outcome State Fault Refusal :=
  settle s do
    let (i, j) ← regFields ra rb
    let p ← readReg s i
    let q ← readReg s j
    let r ← alu op p q
    return advance o.byte (aluCommit s i r)

/-- ADD ra, rb (42_alu.md R111). -/
def execAdd (ra rb : Byte) (s : State) : Host.Outcome State Fault Refusal := execAlu .add .add ra rb s

/-- MUL ra, rb (42_alu.md R112). -/
def execMul (ra rb : Byte) (s : State) : Host.Outcome State Fault Refusal := execAlu .mul .mul ra rb s

/-- CMP ra, rb (42_alu.md R113). -/
def execCmp (ra rb : Byte) (s : State) : Host.Outcome State Fault Refusal := execAlu .cmp .cmp ra rb s

end Sys2Proof.Machine
end

