-- ==== Sys2Proof/Machine/Stack.lean ====
section
/-! DEFINITION. The stack mechanics that PUSH and CALL, POP and RET share (43_stack.md rule R122), and PUSH and POP
(rules R120 and R121). -/

namespace Sys2Proof.Machine

/-- The SP a push moves to, SP - 1, computed on integers (43_stack.md R120): SP = 0 raises OutOfBounds(StackPointer, -1). -/
def pushPointer (s : State) : Except Raise Byte := do
  let sp ← readReg s Config.spIndex
  if sp.toNat = 0 then .error (raiseStackPointer (-1))
  else return BitVec.ofNat 8 (sp.toNat - 1)

/-- The commits of a push (43_stack.md R120): SP first, then the byte at the new SP. -/
def pushCommit (s : State) (sp' v : Byte) : State := memWrite (writeReg s Config.spIndex sp') sp' v

/-- The SP a pop leaves, `base + 1` on integers (43_stack.md R121): 256 raises OutOfBounds(StackPointer, 256). -/
def popPointer (base : Byte) : Except Raise Byte :=
  if base.toNat + 1 > 255 then .error (raiseStackPointer ((base.toNat + 1 : Nat) : Int))
  else .ok (BitVec.ofNat 8 (base.toNat + 1))

/-- The checks of PUSH in their order (43_stack.md R120), and what they find: the new SP and the byte to store. The
register is read after SP has been decremented, so PUSH R7 stores the new SP. -/
def pushChecks (r : Byte) (s : State) : Except Raise (Byte × Byte) := do
  let i ← regField r
  let sp' ← pushPointer s
  let v ← readRegAfterPush s i sp'
  return (sp', v)

/-- PUSH r (43_stack.md R120). -/
def execPush (r : Byte) (s : State) : Host.Outcome State Fault Refusal :=
  settle s do
    let (sp', v) ← pushChecks r s
    return advance Opcode.push.byte (pushCommit s sp' v)

/-- POP r (43_stack.md R121): for r = 7 the increment applies to the value just popped. -/
def execPop (r : Byte) (s : State) : Host.Outcome State Fault Refusal :=
  settle s do
    let i ← regField r
    let sp ← readReg s Config.spIndex
    let v ← memRead s sp
    let sp' ← popPointer (if i = Config.spIndex then v else sp)
    return advance Opcode.pop.byte
      (if i = Config.spIndex then writeReg s Config.spIndex sp'
       else writeReg (writeReg s i v) Config.spIndex sp')

end Sys2Proof.Machine
end

