-- ==== Sys2Proof/Machine/Control.lean ====
section
/-! DEFINITION. CALL, RET, JMP, JEQ and JNE (44_control_transfer.md rules R130 to R134). Each writes pc exactly once, on
every path, and the cycle adds nothing to it. -/

namespace Sys2Proof.Machine

/-- The return address that CALL pushes, pc + 2, one byte (44_control_transfer.md R130): 256 raises
OutOfBounds(ReturnAddress, 256). -/
def returnAddress (s : State) : Except Raise Byte :=
  if s.pc + 2 > 255 then .error (raiseReturnAddress (s.pc + 2)) else .ok (BitVec.ofNat 8 (s.pc + 2))

/-- The checks of CALL in their order (44_control_transfer.md R130), and what they find: the return address, the new SP
and the target. The target is read after the push has decremented SP, so CALL R7 jumps to the new SP. -/
def callChecks (r : Byte) (s : State) : Except Raise (Byte × Byte × Byte) := do
  let i ← regField r
  let ret ← returnAddress s
  let sp' ← pushPointer s
  let t ← readRegAfterPush s i sp'
  return (ret, sp', t)

/-- CALL r (44_control_transfer.md R130). -/
def execCall (r : Byte) (s : State) : Host.Outcome State Fault Refusal :=
  settle s do
    let (ret, sp', t) ← callChecks r s
    return advance Opcode.call.byte (setPc (pushCommit s sp' ret) t.toNat)

/-- RET (44_control_transfer.md R131). -/
def execRet (s : State) : Host.Outcome State Fault Refusal :=
  settle s do
    let sp ← readReg s Config.spIndex
    let v ← memRead s sp
    let sp' ← popPointer sp
    return advance Opcode.ret.byte (setPc (writeReg s Config.spIndex sp') v.toNat)

/-- JMP r (44_control_transfer.md R132). -/
def execJmp (r : Byte) (s : State) : Host.Outcome State Fault Refusal :=
  settle s do
    let i ← regField r
    let t ← readReg s i
    return advance Opcode.jmp.byte (setPc s t.toNat)

/-- JEQ r (44_control_transfer.md R133): the register is read on both paths. -/
def execJeq (r : Byte) (s : State) : Host.Outcome State Fault Refusal :=
  settle s do
    let i ← regField r
    let t ← readReg s i
    return advance Opcode.jeq.byte (setPc s (if isEqual s.fl then t.toNat else s.pc + 2))

/-- JNE r (44_control_transfer.md R134): the register is read on both paths. -/
def execJne (r : Byte) (s : State) : Host.Outcome State Fault Refusal :=
  settle s do
    let i ← regField r
    let t ← readReg s i
    return advance Opcode.jne.byte (setPc s (if isEqual s.fl then s.pc + 2 else t.toNat))

end Sys2Proof.Machine
end

