-- ==== Sys2Proof/Machine/SystemData.lean ====
section
/-! DEFINITION. HLT, LDI and PRN (41_system_and_data.md rules R100 to R102). -/

namespace Sys2Proof.Machine

/-- HLT (41_system_and_data.md R100, 40_execution_cycle.md R86): the advance, then the halt; pc is left at a + 1. -/
def execHlt (s : State) : Host.Outcome State Fault Refusal :=
  settle s (.ok (halt (advance Opcode.hlt.byte s)))

/-- LDI r, imm (41_system_and_data.md R101): the register is written and never read. -/
def execLdi (r imm : Byte) (s : State) : Host.Outcome State Fault Refusal :=
  settle s do
    let i ← regField r
    return advance Opcode.ldi.byte (writeReg s i (immField imm))

/-- PRN r (41_system_and_data.md R102): the register's byte goes to the output. -/
def execPrn (r : Byte) (s : State) : Host.Outcome State Fault Refusal :=
  settle s do
    let i ← regField r
    let v ← readReg s i
    return advance Opcode.prn.byte (emit s v)

end Sys2Proof.Machine
end

