-- ==== Sys2Proof/Machine/Fetch.lean ====
section
/-! DEFINITION. Fetch and decode (40_execution_cycle.md rules R81 to R84): the opcode byte, the lookup, the operand bytes
latched in ascending order, the register fields. It also holds the placing of a byte at a fetch address. -/

namespace Sys2Proof.Machine

/-- The opcode fetch (40_execution_cycle.md R81). -/
def fetchOpcode (s : State) : Except Raise Byte :=
  if s.pc > 255 then .error (raiseFetchAddress s.pc) else memRead s (BitVec.ofNat 8 s.pc)

/-- The fetch of the operand byte at `pc + k` (40_execution_cycle.md R83). -/
def fetchOperand (s : State) (k : Nat) : Except Raise Byte :=
  if s.pc + k > 255 then .error (raiseOperandAddress (s.pc + k)) else memRead s (BitVec.ofNat 8 (s.pc + k))

/-- The fault a decode error raises (40_execution_cycle.md R82, R84). A fetch gives the decoder every byte it needs, so
`truncated` does not reach this from a step; it would be the missing operand byte. -/
def decodeRaise (s : State) : DecodeError → Raise
  | .unknownOpcode ir => raiseUnknownOpcode ir
  | .registerIndex v => raiseRegisterIndex v
  | .truncated given => raiseOperandAddress (s.pc + given)

/-- Decode with its errors as faults. -/
def decodeFetched (s : State) (ir op1 op2 : Byte) : Except Raise Instr :=
  match decodeInstr ir op1 op2 with
  | .ok i => .ok i
  | .error e => .error (decodeRaise s e)

/-- The latched operand byte `k`: fetched where the opcode has that many operands, else not fetched at all
(40_execution_cycle.md R83: exactly as many operand bytes as field AA says). -/
def latchOperand (s : State) (ir : Byte) (k : Nat) : Except Raise Byte :=
  if k ≤ operandCount ir then fetchOperand s k else .ok 0

/-- Fetch and decode the instruction at pc: opcode fetch, lookup, op1, op2, register fields, in the order of
60_exceptions.md R153 (steps 1 to 5). -/
def fetchDecode (s : State) : Except Raise Instr := do
  let ir ← fetchOpcode s
  match lookup ir with
  | none => .error (raiseUnknownOpcode ir)
  | some _ =>
    let op1 ← latchOperand s ir 1
    let op2 ← latchOperand s ir 2
    decodeFetched s ir op1 op2

/-- Memory with the bytes of a list placed at `a`, `a + 1`, ...; what would lie above address 255 is left out. -/
def Memory.place (m : Memory) (a : Nat) : List Byte → Memory
  | [] => m
  | b :: rest =>
    if a < Config.memSize then Memory.place (Memory.set m a b) (a + 1) rest else m

end Sys2Proof.Machine
end

