-- ==== Sys2Proof/Machine/Step.lean ====
section
/-! DEFINITION. One step of the machine (40_execution_cycle.md rules R80 and R88), and the placing of a table word where
the next step fetches. -/

namespace Sys2Proof.Machine

/-- One step (40_execution_cycle.md R80, R88): enabled exactly when the status is Running; it executes the instruction at
pc, or takes the first fault that its fetch and decode raise. From Halted and Faulted no step is enabled, and `step`
answers so by name. -/
def step (s : State) : Host.Outcome State Fault Refusal :=
  match s.status with
  | .halted => .fault .halted
  | .faulted r => .fault (.faulted r)
  | .running =>
    match fetchDecode s with
    | .error r => settle s (.error r)
    | .ok i => exec i s

/-- The state with the three bytes of a table word (`tableBytes`) stored at pc, pc + 1 and pc + 2, where the next step
fetches (log entry 14). Nothing else is changed. -/
def State.withFetchWord (s : State) (nbits w : Nat) : State :=
  { s with mem := Memory.place s.mem s.pc (tableBytes nbits w) }

end Sys2Proof.Machine
end

