-- ==== Sys2Proof/Machine/Launch.lean ====
section
/-! DEFINITION. Launch: the host's one write, before reset is released (70_reset_and_hazards.md rules R180 to R184). -/

namespace Sys2Proof.Machine

/-- Why a launch is refused before any step (60_exceptions.md R152): not a fault of the core (log entry 8). -/
inductive LaunchError where
  /-- the image has more than 256 bytes (70_reset_and_hazards.md R182, decision D19) -/
  | imageTooLong (length : Nat)
  deriving DecidableEq, Repr

/-- Write the launch image into the memory of a reset state, `IMAGE[i]` at address `i`, in order
(70_reset_and_hazards.md R182); an image longer than 256 bytes is refused. `reset` is `State.reset`, or
`State.resetUndefined` for the spec's reset to the letter. -/
def launch (reset : State) (image : List Byte) : Except LaunchError State :=
  if image.length > Config.imageMax then .error (.imageTooLong image.length)
  else .ok { reset with mem := Memory.place reset.mem 0 image }

end Sys2Proof.Machine
end

