-- ==== Sys2Proof/Machine/Observe.lean ====
section
/-! DEFINITION. What the outside may look at: the result of a run (70_reset_and_hazards.md rule R186) and the optional
trace between steps (60_exceptions.md rule R168). Neither changes the state, and no step reads them. -/

namespace Sys2Proof.Machine

/-- The defined value of a register, for an observer. -/
def State.regView (s : State) (i : Fin 8) : Option Byte :=
  if s.regs[i].defined then some s.regs[i].value else none

/-- The defined byte at an address, for an observer; `none` for an undefined byte and above address 255 (log
entry 15). -/
def State.memView (s : State) (a : Nat) : Option Byte :=
  if a < Config.memSize then Memory.get s.mem a else none

/-- The observable result of a run (70_reset_and_hazards.md R186). -/
structure RunResult where
  status : Status
  pc : Nat
  regs : List (Option Byte)
  mem : List (Option Byte)
  fl : FlagState
  out : List Byte
  deriving DecidableEq, Repr

/-- What the host may read once the status is no longer Running (70_reset_and_hazards.md R184, R186); nothing before. -/
def State.result (s : State) : Option RunResult :=
  match s.status with
  | .running => none
  | st => some
      { status := st, pc := s.pc, regs := (List.finRange 8).map s.regView,
        mem := (List.range 256).map s.memView, fl := s.fl, out := s.out }

/-- What the trace facility reads between steps (60_exceptions.md R168). -/
structure TraceView where
  pc : Nat
  fl : Byte
  next : List (Option Byte)
  regs : List (Option Byte)
  deriving DecidableEq, Repr

/-- The trace of a state: pc, FL as a byte, the three memory bytes from pc on, and the 8 registers (60_exceptions.md
R168, 10_state.md R26). -/
def State.trace (s : State) : TraceView :=
  { pc := s.pc, fl := flagByte s.fl, next := [s.memView s.pc, s.memView (s.pc + 1), s.memView (s.pc + 2)],
    regs := (List.finRange 8).map s.regView }

end Sys2Proof.Machine
end

