-- ==== Sys2Proof/Machine/Port.lean ====
section
/-! DEFINITION. The memory port as hardware (20_memory.md rules R43, R51 and R56): the accesses one step makes, in order.
An observer's view: no step reads it (log entry 10). -/

namespace Sys2Proof.Machine

/-- One access on the memory port: an 8-bit address, the direction, and 8 bits of data, which for a read is the byte
read (20_memory.md R56). -/
inductive Access where
  | read (addr data : Byte)
  | write (addr data : Byte)
  deriving DecidableEq, Repr

/-- A read of the port: the access, where the byte is defined (an undefined byte returns nothing, 20_memory.md R42). -/
def readAccess (s : State) (a : Nat) : List Access :=
  match Memory.get s.mem a with
  | some v => if a > 255 then [] else [.read (BitVec.ofNat 8 a) v]
  | none => []

/-- The accesses of the fetch (20_memory.md R51, items 1 and 2): the opcode, then the operands as many as the operand
count, up to the first fetch that raises. -/
def fetchAccesses (s : State) : List Access :=
  match fetchOpcode s with
  | .error _ => []
  | .ok ir =>
    readAccess s s.pc ++
    match lookup ir with
    | none => []
    | some _ =>
      match latchOperand s ir 1 with
      | .error _ => []
      | .ok _ =>
        (if 1 ≤ operandCount ir then readAccess s (s.pc + 1) else []) ++
        (if 2 ≤ operandCount ir then readAccess s (s.pc + 2) else [])

/-- The accesses of the instruction's rule (20_memory.md R43; R51, item 3): PUSH and CALL write at SP - 1 where the
instruction completes; POP and RET read at SP before they check the new SP. No other rule reaches memory. -/
def ruleAccesses (i : Instr) (s : State) : List Access :=
  match i with
  | .push r =>
    match pushChecks r s with
    | .ok (sp', v) => [.write sp' v]
    | .error _ => []
  | .call r =>
    match callChecks r s with
    | .ok (ret, sp', _) => [.write sp' ret]
    | .error _ => []
  | .pop r =>
    match (do let _ ← regField r; readReg s Config.spIndex) with
    | .ok sp => readAccess s sp.toNat
    | .error _ => []
  | .ret =>
    match readReg s Config.spIndex with
    | .ok sp => readAccess s sp.toNat
    | .error _ => []
  | .hlt => []
  | .ldi _ _ => []
  | .prn _ => []
  | .mul _ _ => []
  | .add _ _ => []
  | .cmp _ _ => []
  | .jmp _ => []
  | .jeq _ => []
  | .jne _ => []

/-- The accesses of the step from a state, in the order of 20_memory.md R51; none where no step is enabled. -/
def stepAccesses (s : State) : List Access :=
  match s.status with
  | .running =>
    fetchAccesses s ++
    match fetchDecode s with
    | .ok i => ruleAccesses i s
    | .error _ => []
  | .halted => []
  | .faulted _ => []

/-- Memory after the writes of a list of accesses, in order. -/
def applyWrites (m : Memory) : List Access → Memory
  | [] => m
  | .read _ _ :: rest => applyWrites m rest
  | .write a v :: rest => applyWrites (Memory.set m a.toNat v) rest

end Sys2Proof.Machine
end

