-- ==== Sys2Proof/Safety.lean ====
section
/-! DEFINITION. The terms claims are stated in: what a legal fault record is, the invariant of the machine, runs and their
ends, and the checks of a step in the spec's order of priority. -/

namespace Sys2Proof.Machine

/-- The status after a fault of kind `k` with info `n`, taken at pc (40_execution_cycle.md R87). -/
def State.faultedWith (s : State) (k : FaultKind) (n : Int) : State := { s with status := .faulted ⟨k, s.pc, n⟩ }

/-- The status is Faulted. -/
def State.isFaulted (s : State) : Bool :=
  match s.status with
  | .faulted _ => true
  | .running => false
  | .halted => false

/-- Every register is defined. -/
def State.allDefined (s : State) : Prop := ∀ i : Fin 8, s.regs[i].defined = true

/-- The state with another byte under an undefined register's mark (log entry 2); a defined register is left alone. -/
def State.withUndefinedByte (s : State) (i : Fin 8) (v : Byte) : State :=
  if s.regs[i].defined then s else { s with regs := s.regs.set i ⟨v, false⟩ }

/-- A fault record is one of the rows of 60_exceptions.md R150: for its kind, the info is one the table allows.
UnsupportedOperation has no legal record, since no instruction makes such a request (42_alu.md R110). -/
def FaultRecord.Legal (r : FaultRecord) : Prop :=
  match r.kind with
  | .unknownOpcode => ∃ ir : Byte, r.info = ir.toNat ∧ lookup ir = none
  | .outOfBounds .fetchAddress => 256 ≤ r.info ∧ r.info ≤ 258 ∧ r.info = r.pc
  | .outOfBounds .operandAddress => r.info = 256 ∨ r.info = 257
  | .outOfBounds .registerIndex => 8 ≤ r.info ∧ r.info ≤ 255
  | .outOfBounds .stackPointer => r.info = -1 ∨ r.info = 256
  | .outOfBounds .returnAddress => r.info = 256 ∧ r.pc = 254
  | .unsupportedOperation => False
  | .uninitializedRead .register => 0 ≤ r.info ∧ r.info ≤ 6
  | .uninitializedRead .memory => 0 ≤ r.info ∧ r.info ≤ 255

/-- The invariant of the machine: memory is in canonical form, inside 0..255 (20_memory.md R40); pc is in 0..258
(10_state.md R24); R7 is defined (R22); a fault record is legal and holds the pc the machine stands at (R28,
40_execution_cycle.md R87). -/
structure State.Inv (s : State) : Prop where
  mem_wf : s.mem.wf = true
  pc_le : s.pc ≤ 258
  sp_defined : s.regs[Config.spIndex].defined = true
  record_legal : ∀ r, s.status = .faulted r → r.Legal ∧ r.pc = s.pc

/-- `t` is reached from `s` by some number of steps. -/
inductive Reaches : State → State → Prop where
  | refl (s : State) : Reaches s s
  | step {s t u : State} : Sys2Proof.Machine.step s = .next t → Reaches t u → Reaches s u

/-- `t` is the end of the run from `s` (70_reset_and_hazards.md R185): reached, with a status that is Halted or
Faulted. (It is the first such state: no step is enabled from it.) -/
def EndsAt (s t : State) : Prop := Reaches s t ∧ t.status ≠ .running

/-- The bytes of a list are those at pc, pc + 1, ... of a state, all of them inside 0..255. -/
def State.bytesAtPc (s : State) (bs : List Byte) : Prop :=
  ∀ k (h : k < bs.length), s.pc + k ≤ 255 ∧ Memory.get s.mem (s.pc + k) = some bs[k]

/-! ## The checks of a step, in the order of 60_exceptions.md R153 -/

/-- One check: whether it fails, and the fault it then raises. -/
structure Check where
  fails : Bool
  kind : FaultKind
  info : Int

/-- The byte at pc + k, where there is one. -/
def State.fetchByte (s : State) (k : Nat) : Byte := (Memory.get s.mem (s.pc + k)).getD 0

/-- The check of a read of the register an operand byte names (60_exceptions.md R150, code 4.1). -/
def definedCheck (s : State) (b : Byte) : Check :=
  ⟨!(s.regs[Fin.ofNat 8 b.toNat].defined), .uninitializedRead .register, (b.toNat : Int)⟩

/-- The check of a push (60_exceptions.md R150, code 2.4): SP = 0. -/
def pushCheck (s : State) : Check :=
  ⟨s.regs[Config.spIndex].value == 0, .outOfBounds .stackPointer, -1⟩

/-- The check of a pop (60_exceptions.md R150, code 2.4): the new SP, one more than `base`, would be 256. -/
def popCheck (base : Byte) : Check := ⟨base == 255, .outOfBounds .stackPointer, 256⟩

/-- The check of a read of memory at SP (60_exceptions.md R150, code 4.2). -/
def stackReadCheck (s : State) : Check :=
  ⟨(Memory.get s.mem s.regs[Config.spIndex].value.toNat).isNone, .uninitializedRead .memory,
    (s.regs[Config.spIndex].value.toNat : Int)⟩

/-- The checks of an instruction's rule, in the order its pseudocode writes them (60_exceptions.md R151, R153 item 6;
41 R100-R102, 42 R111-R113, 43 R120-R121, 44 R130-R134), for operand bytes that name registers. A read of `x[7]` as SP
is a check too, and it fails only where R7 is undefined, which `State.Inv` rules out (log entry 9). -/
def ruleChecks (o : Opcode) (op1 op2 : Byte) (s : State) : List Check :=
  match o with
  | .hlt => []
  | .ldi => []
  | .prn => [definedCheck s op1]
  | .mul => [definedCheck s op1, definedCheck s op2]
  | .add => [definedCheck s op1, definedCheck s op2]
  | .cmp => [definedCheck s op1, definedCheck s op2]
  | .push => [definedCheck s 7, pushCheck s, definedCheck s op1]
  | .pop =>
    [definedCheck s 7, stackReadCheck s,
      popCheck (if op1 = 7 then (Memory.get s.mem s.regs[Config.spIndex].value.toNat).getD 0
        else s.regs[Config.spIndex].value)]
  | .call =>
    [⟨decide (s.pc + 2 > 255), .outOfBounds .returnAddress, (s.pc + 2 : Nat)⟩, definedCheck s 7, pushCheck s,
      definedCheck s op1]
  | .ret => [definedCheck s 7, stackReadCheck s, popCheck s.regs[Config.spIndex].value]
  | .jmp => [definedCheck s op1]
  | .jeq => [definedCheck s op1]
  | .jne => [definedCheck s op1]

/-- The checks of the operand fetch at pc + k (60_exceptions.md R153 item 4). -/
def operandChecks (s : State) (k : Nat) : List Check :=
  [⟨decide (s.pc + k > 255), .outOfBounds .operandAddress, (s.pc + k : Nat)⟩,
    ⟨(Memory.get s.mem (s.pc + k)).isNone, .uninitializedRead .memory, (s.pc + k : Nat)⟩]

/-- The checks of the opcode fetch (60_exceptions.md R153 items 1 and 2). -/
def fetchChecks (s : State) : List Check :=
  [⟨decide (s.pc > 255), .outOfBounds .fetchAddress, (s.pc : Nat)⟩,
    ⟨(Memory.get s.mem s.pc).isNone, .uninitializedRead .memory, (s.pc : Nat)⟩]

/-- All checks of a step, in the order of 60_exceptions.md R153. -/
def stepChecks (s : State) : List Check :=
  fetchChecks s ++
  [⟨(lookup (s.fetchByte 0)).isNone, .unknownOpcode, ((s.fetchByte 0).toNat : Int)⟩] ++
  match lookup (s.fetchByte 0) with
  | none => []
  | some o =>
    (match o.format with
      | .N => []
      | .R => operandChecks s 1
      | .RR => operandChecks s 1 ++ operandChecks s 2
      | .RI => operandChecks s 1 ++ operandChecks s 2) ++
    (o.format.registerFields (s.fetchByte 1) (s.fetchByte 2)).map
      (fun b => ⟨decide (7 < b.toNat), .outOfBounds .registerIndex, (b.toNat : Int)⟩) ++
    ruleChecks o (s.fetchByte 1) (s.fetchByte 2) s

/-- The first check of a list that fails. -/
def firstFailing : List Check → Option Check
  | [] => none
  | c :: rest => if c.fails then some c else firstFailing rest

end Sys2Proof.Machine
end

