-- ==== Sys2Proof/Certificates/Slice0/Obligations.lean ====
section
/-! DEFINITION. The statements for the provers. Each docstring names the rule of spec/ a statement formalises, and where it
rests on a decision of the spec (D<n> of 92_eei_decisions.md) or on a choice of the model (a log entry). A register cell
`⟨v, true⟩` is a defined register that holds `v`; `regByte i` is the operand byte that names register `i`. A statement about
`exec` covers every status and pc, since `exec` asks neither (log entry 13): `step` asks the status. -/

open Sys2Proof Sys2Proof.Machine

/-! ## Reset, launch, invariants -/

/-- What `State.reset` holds. The values of pc, SP, FL, status and out are those of 10_state.md R34; that R0..R6 are
defined and hold 0 is the model's choice (log entry 1), and that no byte of memory is defined is the empty launch
image (log entry 14). -/
def Obligations.ResetState : Prop :=
  State.reset.pc = 0 ∧ State.reset.regs[7] = ⟨0xF4, true⟩ ∧ State.reset.fl = .unset ∧
  State.reset.status = .running ∧ State.reset.out = [] ∧ (∀ a, Memory.get State.reset.mem a = none) ∧
  (∀ i : Fin 8, i ≠ 7 → State.reset.regs[i] = ⟨0, true⟩)

/-- 10_state.md R34 and 70_reset_and_hazards.md R182 to the letter, with R0..R6 undefined (the spec's decisions D8, D9,
D19): an image of at most 256 bytes is placed from address 0, the rest of memory is undefined, and a longer image is
refused. -/
def Obligations.LaunchFromSpecReset : Prop :=
  ∀ image : List Byte,
    (image.length ≤ 256 →
      ∃ s, launch State.resetUndefined image = .ok s ∧
        (∀ a (h : a < image.length), Memory.get s.mem a = some image[a]) ∧
        (∀ a, image.length ≤ a → Memory.get s.mem a = none) ∧
        (∀ i : Fin 8, i ≠ 7 → s.regs[i].defined = false) ∧ s.regs[7] = ⟨0xF4, true⟩ ∧
        s.pc = 0 ∧ s.fl = .unset ∧ s.status = .running ∧ s.out = []) ∧
    (256 < image.length → ∀ s, launch State.resetUndefined image ≠ .ok s)

/-- The invariant holds at the model's reset and at the spec's. -/
def Obligations.ResetMeetsInvariant : Prop := State.reset.Inv ∧ State.resetUndefined.Inv

/-- Launching any image keeps the invariant: memory is in canonical form, inside 0..255 (R40, R42, R182). -/
def Obligations.LaunchKeepsInvariant : Prop :=
  ∀ s image t, s.Inv → launch s image = .ok t → t.Inv

/-- Every step keeps the invariant: memory stays canonical and inside 0..255 (20_memory.md R40-R42), pc stays in 0..258
(10_state.md R24), R7 stays defined (R22), and a fault record is legal by 60_exceptions.md R150 and names the pc (R28,
40_execution_cycle.md R87). It rests on the spec's decisions D3, D8-D11. -/
def Obligations.StepKeepsInvariant : Prop :=
  ∀ s t, s.Inv → step s = .next t → t.Inv

/-- Whatever runs from a launch on `State.reset` reads no undefined register: every state reached has all registers
defined, and none has taken UninitializedRead(Register). (Rests on log entry 1: `State.reset` defines R0..R6.) -/
def Obligations.NoUndefinedRegisterFromReset : Prop :=
  ∀ image s t, launch State.reset image = .ok s → Reaches s t →
    t.allDefined ∧ ∀ r, t.status = .faulted r → r.kind ≠ .uninitializedRead .register

/-- A register that is defined stays defined: no step undefines one (10_state.md R22). -/
def Obligations.DefinedStaysDefined : Prop :=
  ∀ (s t : State) (i : Fin 8), step s = .next t → s.regs[i].defined = true → t.regs[i].defined = true

/-- A run has at most one end (70_reset_and_hazards.md R185; 40_execution_cycle.md R90: no choice is made). -/
def Obligations.RunHasAtMostOneEnd : Prop :=
  ∀ s t u, EndsAt s t → EndsAt s u → t = u

/-! ## Encoding -/

/-- Decoding the bytes of a well-formed instruction, whatever follows them, gives it back with every operand byte. -/
def Obligations.DecodeOfEncode : Prop :=
  ∀ (i : Instr) (rest : List Byte), i.WellFormed → decode (encode i ++ rest) = .ok (i, rest)

/-- What the decoder accepts is exactly the encoding of a well-formed instruction: each byte sequence has one meaning. -/
def Obligations.DecodedBytesAreTheEncoding : Prop :=
  ∀ (bs rest : List Byte) (i : Instr), decode bs = .ok (i, rest) → i.WellFormed ∧ bs = encode i ++ rest

/-- Words written out bit by bit from the encodings of 30_encoding.md R61 and R62. -/
def Obligations.WordsFromTheTable : Prop :=
  decode [0b00000001] = .ok (.hlt, []) ∧
  decode [0b10000010, 0b00000011, 0b11111111] = .ok (.ldi 3 255, []) ∧
  decode [0b10100010, 0b00000101, 0b00000110] = .ok (.mul 5 6, []) ∧
  decode [0b01000101, 0b00000111] = .ok (.push 7, []) ∧
  decode [0b01010000, 0b00000100] = .ok (.call 4, []) ∧
  decode [0b01010101, 0b00000010] = .ok (.jeq 2, [])

/-- 30_encoding.md R69: the length is 1 + AA, so 1, 2 or 3 bytes; the decoder reads the opcode byte, rejects it if it is
no opcode, and then takes AA operand bytes. -/
def Obligations.LengthIsOnePlusOperandCount : Prop :=
  (∀ i : Instr, (encode i).length = 1 + operandCount i.opcode.byte ∧
    ((encode i).length = 1 ∨ (encode i).length = 2 ∨ (encode i).length = 3)) ∧
  (∀ (ir : Byte) (rest : List Byte), lookup ir = none → decode (ir :: rest) = .error (.unknownOpcode ir)) ∧
  (∀ (ir : Byte) (rest rest' : List Byte) (i : Instr), decode (ir :: rest) = .ok (i, rest') →
    rest' = rest.drop (operandCount ir) ∧ operandCount ir ≤ rest.length)

/-- The fields AA, B, C and DDDD of every opcode byte as the columns of 30_encoding.md R62 give them (R60, R67, R68). -/
def Obligations.OpcodeFieldsAgreeWithTable : Prop :=
  Opcode.all.map (fun o => (o.byte, operandCount o.byte, aluBit o.byte, setsPc o.byte, opcodeId o.byte)) =
    [(0x01, 0, false, false, 0b0001), (0x82, 2, false, false, 0b0010), (0x47, 1, false, false, 0b0111),
     (0xA2, 2, true, false, 0b0010), (0xA0, 2, true, false, 0b0000), (0x45, 1, false, false, 0b0101),
     (0x46, 1, false, false, 0b0110), (0x50, 1, false, true, 0b0000), (0x11, 0, false, true, 0b0001),
     (0xA7, 2, true, false, 0b0111), (0x54, 1, false, true, 0b0100), (0x55, 1, false, true, 0b0101),
     (0x56, 1, false, true, 0b0110)]

/-- 30_encoding.md R63: dispatch uses the whole byte, the named pairs share DDDD and are different instructions, and only
JMP has DDDD 0100. -/
def Obligations.DispatchUsesWholeByte : Prop :=
  (∀ (ir : Byte) (o : Opcode), lookup ir = some o ↔ ir = o.byte) ∧
  (∀ p ∈ [(Opcode.add, Opcode.call), (.hlt, .ret), (.ldi, .mul), (.push, .jeq), (.pop, .jne), (.prn, .cmp)],
    opcodeId p.1.byte = opcodeId p.2.byte ∧ p.1.byte ≠ p.2.byte ∧
      lookup p.1.byte = some p.1 ∧ lookup p.2.byte = some p.2) ∧
  (∀ o : Opcode, opcodeId o.byte = 0b0100 ↔ o = .jmp)

/-- 30_encoding.md R66: every opcode byte outside the table is illegal, 243 of them, the named groups among them, and
fetching one raises UnknownOpcode(byte): it is not skipped. -/
def Obligations.IllegalBytesRaiseUnknownOpcode : Prop :=
  (((List.range 256).filter fun n => (lookup (BitVec.ofNat 8 n)).isNone).length = 243) ∧
  (∀ b : Byte, operandCount b = 3 ∨ b = 0 ∨ (aluBit b = true ∧ b ∉ [0xA0, 0xA2, 0xA7]) ∨
      (setsPc b = true ∧ b ∉ [0x11, 0x50, 0x54, 0x55, 0x56]) → lookup b = none) ∧
  (∀ (s : State) (b : Byte),
    b ∉ [0x01, 0x82, 0x47, 0xA2, 0xA0, 0x45, 0x46, 0x50, 0x11, 0xA7, 0x54, 0x55, 0x56] →
    s.status = .running → s.pc ≤ 255 → Memory.get s.mem s.pc = some b →
    step s = .next (s.faultedWith .unknownOpcode b.toNat))

/-- 30_encoding.md R64 and 40_execution_cycle.md R84 (the spec's decisions D2, D12): a register operand byte 8..255 raises
OutOfBounds(RegisterIndex) with the byte, op1 before op2, taken or not, whatever the registers hold. -/
def Obligations.RegisterFieldOutOfRange : Prop :=
  ∀ (s : State) (b c : Byte), 8 ≤ b.toNat →
    (∀ i ∈ [Instr.prn b, .push b, .pop b, .call b, .jmp b, .jeq b, .jne b, .ldi b c, .add b c, .mul b c, .cmp b c],
      exec i s = .next (s.faultedWith (.outOfBounds .registerIndex) b.toNat)) ∧
    (c.toNat < 8 → ∀ i ∈ [Instr.add c b, .mul c b, .cmp c b],
      exec i s = .next (s.faultedWith (.outOfBounds .registerIndex) b.toNat)) ∧
    (∀ i ∈ [Instr.prn b, .push b, .pop b, .call b, .jmp b, .jeq b, .jne b, .ldi b c, .add b c, .mul b c, .cmp b c],
      decode (encode i) = .error (.registerIndex b))

/-! ## The cycle -/

/-- A step runs the decoded instruction: where the bytes at pc decode to an instruction, the step is its execution, with
nothing around it (40_execution_cycle.md R88; the advance is inside exec). -/
def Obligations.StepRunsDecodedInstruction : Prop :=
  ∀ (s : State) (bs rest : List Byte) (i : Instr),
    s.status = .running → s.bytesAtPc bs → decode bs = .ok (i, rest) → step s = exec i s

/-- 40_execution_cycle.md R80: the engine starts Running at pc 0; a step is enabled exactly when the status is Running;
each step executes one instruction or raises one fault. -/
def Obligations.StepEnabledExactlyWhenRunning : Prop :=
  State.reset.status = .running ∧ State.reset.pc = 0 ∧
  (∀ s, (∃ t, step s = .next t) ↔ s.status = .running) ∧
  (∀ s, s.status = .running →
    (∃ i : Instr, i.WellFormed ∧ step s = exec i s) ∨ ∃ k n, step s = .next (s.faultedWith k n))

/-- 60_exceptions.md R153 (the spec's decision D12): a step reports exactly one fault, that of the first check that fails
in the order of `stepChecks`; where none fails, the instruction completes. The check of an undefined R7 as the stack
pointer, in states that no run reaches, is the model's own (log entry 9). -/
def Obligations.FirstFailingCheckIsTaken : Prop :=
  ∀ s, s.status = .running →
    match firstFailing (stepChecks s) with
    | some c => step s = .next (s.faultedWith c.kind c.info)
    | none => ∃ t, step s = .next t ∧ t.isFaulted = false

/-- 40_execution_cycle.md R87 (the spec's decision D10): a fault changes nothing but the status, and its record holds the
pc, which stays at the opcode byte. -/
def Obligations.FaultIsPrecise : Prop :=
  ∀ s t r, step s = .next t → t.status = .faulted r → t = { s with status := .faulted r } ∧ r.pc = s.pc

/-- 40_execution_cycle.md R86 (the spec's decision D27): HLT at `a` leaves pc = a + 1 and the status Halted, at address
255 too, where pc becomes 256. -/
def Obligations.HaltStep : Prop :=
  ∀ s, s.status = .running → s.pc ≤ 255 → Memory.get s.mem s.pc = some 0x01 →
    step s = .next { s with pc := s.pc + 1, status := .halted }

/-- 10_state.md R25 and 40_execution_cycle.md R89: after a completed instruction, pc has moved by 1 + AA where C = 0, and
is exactly what the instruction's rule assigns where C = 1 (44_control_transfer.md R130-R134; that CALL R7 goes to the
decremented SP is the spec's decision D22, log entry 6); a step that faults leaves pc. The bytes are those fetched. -/
def Obligations.ProgramCounterLaw : Prop :=
  ∀ s t, step s = .next t →
    (t.isFaulted = true → t.pc = s.pc) ∧
    (t.isFaulted = false →
      (setsPc (s.fetchByte 0) = false → t.pc = s.pc + 1 + operandCount (s.fetchByte 0)) ∧
      (s.fetchByte 0 = 0x11 → Memory.get s.mem s.regs[7].value.toNat = some (BitVec.ofNat 8 t.pc) ∧ t.pc ≤ 255) ∧
      (∀ i : Fin 8, s.fetchByte 1 = regByte i →
        (s.fetchByte 0 = 0x54 → t.pc = s.regs[i].value.toNat) ∧
        (s.fetchByte 0 = 0x55 → t.pc = if s.fl = .equal then s.regs[i].value.toNat else s.pc + 2) ∧
        (s.fetchByte 0 = 0x56 → t.pc = if s.fl = .equal then s.pc + 2 else s.regs[i].value.toNat) ∧
        (s.fetchByte 0 = 0x50 → t.pc = if i = 7 then s.regs[7].value.toNat - 1 else s.regs[i].value.toNat)) ∧
      (setsPc (s.fetchByte 0) = true → s.fetchByte 0 ≠ 0x11 → ∃ i : Fin 8, s.fetchByte 1 = regByte i))

/-- 10_state.md R26: no instruction other than CMP changes FL. -/
def Obligations.OnlyCompareWritesFlags : Prop :=
  ∀ s t, step s = .next t → t.fl ≠ s.fl → s.fetchByte 0 = 0xA7

/-- 10_state.md R32 (the spec's decision D14): out is empty at reset; a completed PRN appends the register's byte; nothing
else appends, and nothing removes. -/
def Obligations.OnlyPrintEmits : Prop :=
  State.reset.out = [] ∧
  ∀ s t, step s = .next t →
    (s.fetchByte 0 = 0x47 → t.isFaulted = false →
      ∃ i : Fin 8, s.fetchByte 1 = regByte i ∧ t.out = s.out ++ [s.regs[i].value]) ∧
    (s.fetchByte 0 ≠ 0x47 ∨ t.isFaulted = true → t.out = s.out)

/-- 20_memory.md R43 (writes): a step changes memory only by PUSH or CALL, and then only the byte at SP - 1. -/
def Obligations.OnlyPushAndCallWriteMemory : Prop :=
  ∀ s t a, step s = .next t → Memory.get t.mem a ≠ Memory.get s.mem a →
    (s.fetchByte 0 = 0x45 ∨ s.fetchByte 0 = 0x50) ∧ a + 1 = s.regs[7].value.toNat

/-- 10_state.md R21 (writes): a step changes a register only if it is the destination of LDI, ADD, MUL or POP, or R7 by
PUSH, POP, CALL or RET. -/
def Obligations.RegisterWriters : Prop :=
  ∀ (s t : State) (i : Fin 8), step s = .next t → t.regs[i] ≠ s.regs[i] →
    (s.fetchByte 0 ∈ [0x82, 0xA0, 0xA2, 0x46] ∧ s.fetchByte 1 = regByte i) ∨
    (s.fetchByte 0 ∈ [0x45, 0x46, 0x50, 0x11] ∧ i = 7)

/-- 10_state.md R29 (last sentence): the status is written only by HLT and by the fault commit. -/
def Obligations.StatusWriters : Prop :=
  ∀ s t, step s = .next t →
    t.status = .running ∨ (t.status = .halted ∧ s.fetchByte 0 = 0x01) ∨ t.isFaulted = true

/-- 20_memory.md R51 and R56 (the spec's decisions D7 and D24; the list is the model's view of the port, log entry 10): the
writes that the port lists for a step are all that happens to memory, the first access
is the opcode fetch, and every read returns the byte memory holds before the step. -/
def Obligations.PortAccountsForMemory : Prop :=
  ∀ s t, step s = .next t →
    t.mem = applyWrites s.mem (stepAccesses s) ∧
    (s.pc ≤ 255 → ∀ ir, Memory.get s.mem s.pc = some ir →
      (stepAccesses s).head? = some (.read (BitVec.ofNat 8 s.pc) ir)) ∧
    (∀ a v, Access.read a v ∈ stepAccesses s → Memory.get s.mem a.toNat = some v)

/-- 20_memory.md R54 (the spec's decision D7): a PUSH that writes the byte at the next pc is seen by the next fetch (here
it writes 0x01 and the next step halts), and a CALL whose push lands on its own operand byte jumps through the operand
it latched. -/
def Obligations.WritesOverCode : Prop :=
  (∀ (s : State) (i : Fin 8) (sp : Byte), i ≠ 7 → s.status = .running → s.bytesAtPc [0x45, regByte i] →
    s.regs[i] = ⟨0x01, true⟩ → s.regs[7] = ⟨sp, true⟩ → sp.toNat = s.pc + 3 →
    ∃ t, step s = .next t ∧ step t = .next { t with pc := s.pc + 3, status := .halted }) ∧
  (∀ (s : State) (i : Fin 8) (v sp : Byte), i ≠ 7 → s.status = .running → s.bytesAtPc [0x50, regByte i] →
    s.pc ≤ 253 → s.regs[i] = ⟨v, true⟩ → s.regs[7] = ⟨sp, true⟩ → sp.toNat = s.pc + 2 →
    ∃ t, step s = .next t ∧ t.pc = v.toNat ∧ Memory.get t.mem (s.pc + 1) = some (BitVec.ofNat 8 (s.pc + 2)))

/-- No instruction tells G from L, or either from NONE (10_state.md R26: "No instruction reads G or L"): two states that
differ only in FL, with the same Equal state, step to states that differ at most in FL, which each keeps as it was or
both have from the same comparison. -/
def Obligations.GreaterAndLessAreNotRead : Prop :=
  ∀ s t f, isEqual f = isEqual s.fl → step s = .next t →
    ∃ t', step { s with fl := f } = .next t' ∧ { t' with fl := t.fl } = t ∧
      (t'.fl = t.fl ∨ (t.fl = s.fl ∧ t'.fl = f))

/-- The byte an undefined register carries is never read (log entry 2): putting another byte there changes no step but for
that byte, until the register is written. -/
def Obligations.UndefinedRegisterByteIsNotRead : Prop :=
  ∀ (s t : State) (i : Fin 8) (v : Byte), step s = .next t →
    step (s.withUndefinedByte i v) = .next (t.withUndefinedByte i v)

/-! ## The rules of LDI, ADD, MUL, CMP and JMP, whole, as steps -/

/-- The outcome of a step from `s` by a list of checks in order: the first that fails is taken, else the step commits
`t`. -/
def stepsByChecks (s : State) (checks : List Check) (t : State) : Prop :=
  step s = .next (match firstFailing checks with
    | some c => s.faultedWith c.kind c.info
    | none => t)

/-- The check of a register field (40_execution_cycle.md R84). -/
def fieldCheck (b : Byte) : Check := ⟨decide (7 < b.toNat), .outOfBounds .registerIndex, (b.toNat : Int)⟩

/-- The check of a register read (10_state.md R22), for the register that an operand byte `regByte i` names. -/
def undefinedCheck (s : State) (b : Byte) : Check :=
  ⟨decide (∃ i : Fin 8, b = regByte i ∧ s.regs[i].defined = false), .uninitializedRead .register, (b.toNat : Int)⟩

/-- The register that an operand byte names, as a value (0 where it names none: the field check fails first). -/
def operandValue (s : State) (b : Byte) : Byte := if h : b.toNat < 8 then s.regs[b.toNat].value else 0

/-- A state with a register that an operand byte names written, and pc moved past 3 bytes. -/
def afterRegisterWrite (s : State) (b v : Byte) : State :=
  if h : b.toNat < 8 then { s with regs := s.regs.set b.toNat ⟨v, true⟩, pc := s.pc + 3 } else s

/-- The opcode a step fetches, where it fetches one, is `ir`. -/
def fetchesOnly (s : State) (ir : Byte) : Prop := s.pc ≤ 255 → ∀ b, Memory.get s.mem s.pc = some b → b = ir

/-- 41_system_and_data.md R101, whole, for a step whose opcode byte is 0x82: the exceptions of the rule, the result, FL
and all else unchanged. The order of exceptions that overlap is that of
60_exceptions.md R153, the spec's decision D12 (log entry 6). -/
def Obligations.LoadImmediateRule : Prop :=
  ∀ s, s.status = .running → fetchesOnly s 0b10000010 →
    stepsByChecks s (fetchChecks s ++ operandChecks s 1 ++ operandChecks s 2 ++ [fieldCheck (s.fetchByte 1)])
      (afterRegisterWrite s (s.fetchByte 1) (s.fetchByte 2))

/-- 42_alu.md R111, whole, for a step whose opcode byte is 0xA0. The order of exceptions that overlap is that of
60_exceptions.md R153, the spec's decision D12 (log entry 6). -/
def Obligations.AddRule : Prop :=
  ∀ s, s.status = .running → fetchesOnly s 0b10100000 →
    stepsByChecks s (fetchChecks s ++ operandChecks s 1 ++ operandChecks s 2 ++
        [fieldCheck (s.fetchByte 1), fieldCheck (s.fetchByte 2),
        undefinedCheck s (s.fetchByte 1), undefinedCheck s (s.fetchByte 2)])
      (afterRegisterWrite s (s.fetchByte 1) (BitVec.ofNat 8
        (((operandValue s (s.fetchByte 1)).toNat + (operandValue s (s.fetchByte 2)).toNat) % 256)))

/-- 42_alu.md R112, whole, for a step whose opcode byte is 0xA2. The order of exceptions that overlap is that of
60_exceptions.md R153, the spec's decision D12 (log entry 6). -/
def Obligations.MultiplyRule : Prop :=
  ∀ s, s.status = .running → fetchesOnly s 0b10100010 →
    stepsByChecks s (fetchChecks s ++ operandChecks s 1 ++ operandChecks s 2 ++
        [fieldCheck (s.fetchByte 1), fieldCheck (s.fetchByte 2),
        undefinedCheck s (s.fetchByte 1), undefinedCheck s (s.fetchByte 2)])
      (afterRegisterWrite s (s.fetchByte 1) (BitVec.ofNat 8
        (((operandValue s (s.fetchByte 1)).toNat * (operandValue s (s.fetchByte 2)).toNat) % 256)))

/-- 42_alu.md R113, whole, for a step whose opcode byte is 0xA7. The order of exceptions that overlap is that of
60_exceptions.md R153, the spec's decision D12 (log entry 6). -/
def Obligations.CompareRule : Prop :=
  ∀ s, s.status = .running → fetchesOnly s 0b10100111 →
    stepsByChecks s (fetchChecks s ++ operandChecks s 1 ++ operandChecks s 2 ++
        [fieldCheck (s.fetchByte 1), fieldCheck (s.fetchByte 2),
        undefinedCheck s (s.fetchByte 1), undefinedCheck s (s.fetchByte 2)])
      { s with
        fl := if operandValue s (s.fetchByte 1) = operandValue s (s.fetchByte 2) then .equal
          else if (operandValue s (s.fetchByte 1)).toNat > (operandValue s (s.fetchByte 2)).toNat then .greater else .less
        pc := s.pc + 3 }

/-- 44_control_transfer.md R132, whole, for a step whose opcode byte is 0x54. -/
def Obligations.JumpRule : Prop :=
  ∀ s, s.status = .running → fetchesOnly s 0b01010100 →
    stepsByChecks s (fetchChecks s ++ operandChecks s 1 ++
        [fieldCheck (s.fetchByte 1), undefinedCheck s (s.fetchByte 1)])
      { s with pc := (operandValue s (s.fetchByte 1)).toNat }

/-! ## Each instruction's effect: where it completes, and with what next state -/

/-- HLT completes from every state (41_system_and_data.md R100; pc by the spec's decision D27). -/
def Obligations.HaltResult : Prop :=
  ∀ s, exec .hlt s = .next { s with pc := s.pc + 1, status := .halted }

/-- LDI completes for every register and every immediate byte, and writes the byte unchanged (R101, R65). -/
def Obligations.LoadImmediateResult : Prop :=
  ∀ (s : State) (i : Fin 8) (v : Byte),
    exec (.ldi (regByte i) v) s = .next { s with regs := s.regs.set i ⟨v, true⟩, pc := s.pc + 3 }

/-- PRN completes where the register is defined (R102). -/
def Obligations.PrintResult : Prop :=
  ∀ (s : State) (i : Fin 8) (v : Byte), s.regs[i] = ⟨v, true⟩ →
    exec (.prn (regByte i)) s = .next { s with out := s.out ++ [v], pc := s.pc + 2 }

/-- ADD completes where both registers are defined, the same register twice and R7 among them (R111). -/
def Obligations.AddResult : Prop :=
  ∀ (s : State) (i j : Fin 8) (p q : Byte), s.regs[i] = ⟨p, true⟩ → s.regs[j] = ⟨q, true⟩ →
    exec (.add (regByte i) (regByte j)) s =
      .next { s with regs := s.regs.set i ⟨BitVec.ofNat 8 ((p.toNat + q.toNat) % 256), true⟩, pc := s.pc + 3 }

/-- MUL completes where both registers are defined: the low 8 bits of the product (R112, R114). -/
def Obligations.MultiplyResult : Prop :=
  ∀ (s : State) (i j : Fin 8) (p q : Byte), s.regs[i] = ⟨p, true⟩ → s.regs[j] = ⟨q, true⟩ →
    exec (.mul (regByte i) (regByte j)) s =
      .next { s with regs := s.regs.set i ⟨BitVec.ofNat 8 ((p.toNat * q.toNat) % 256), true⟩, pc := s.pc + 3 }

/-- CMP completes where both registers are defined, and sets FL to exactly one of E, G, L, unsigned (R113). -/
def Obligations.CompareResult : Prop :=
  ∀ (s : State) (i j : Fin 8) (p q : Byte), s.regs[i] = ⟨p, true⟩ → s.regs[j] = ⟨q, true⟩ →
    exec (.cmp (regByte i) (regByte j)) s =
      .next { s with
        fl := if p.toNat = q.toNat then .equal else if p.toNat > q.toNat then .greater else .less
        pc := s.pc + 3 }

/-- PUSH completes where SP is not 0 and the register is defined: SP - 1, then the byte at the new SP; PUSH R7 stores the
new SP (R120; the spec's decisions D4 and D22). -/
def Obligations.PushResult : Prop :=
  ∀ (s : State) (i : Fin 8) (v sp : Byte), s.regs[7] = ⟨sp, true⟩ → sp.toNat ≠ 0 → s.regs[i] = ⟨v, true⟩ →
    exec (.push (regByte i)) s =
      .next { s with
        regs := s.regs.set 7 ⟨BitVec.ofNat 8 (sp.toNat - 1), true⟩
        mem := Memory.set s.mem (sp.toNat - 1) (if i = 7 then BitVec.ofNat 8 (sp.toNat - 1) else v)
        pc := s.pc + 2 }

/-- POP completes where the byte at SP is defined and the new SP is in range: x[r] gets the byte and SP moves up by 1;
POP R7 leaves SP = popped value + 1 (R121; the spec's decisions D4 and D22). -/
def Obligations.PopResult : Prop :=
  ∀ (s : State) (i : Fin 8) (v sp : Byte), s.regs[7] = ⟨sp, true⟩ → Memory.get s.mem sp.toNat = some v →
    (if i = 7 then v.toNat else sp.toNat) + 1 ≤ 255 →
    exec (.pop (regByte i)) s =
      .next { s with
        regs := if i = 7 then s.regs.set 7 ⟨BitVec.ofNat 8 (v.toNat + 1), true⟩
          else (s.regs.set i ⟨v, true⟩).set 7 ⟨BitVec.ofNat 8 (sp.toNat + 1), true⟩
        pc := s.pc + 2 }

/-- CALL completes at an address up to 253 where SP is not 0 and the register is defined: pc + 2 is pushed and pc becomes
the register, for R7 the new SP (R130; the spec's decisions D4, D6 and D22). -/
def Obligations.CallResult : Prop :=
  ∀ (s : State) (i : Fin 8) (t sp : Byte), s.pc ≤ 253 → s.regs[7] = ⟨sp, true⟩ → sp.toNat ≠ 0 →
    s.regs[i] = ⟨t, true⟩ →
    exec (.call (regByte i)) s =
      .next { s with
        regs := s.regs.set 7 ⟨BitVec.ofNat 8 (sp.toNat - 1), true⟩
        mem := Memory.set s.mem (sp.toNat - 1) (BitVec.ofNat 8 (s.pc + 2))
        pc := if i = 7 then sp.toNat - 1 else t.toNat }

/-- RET completes where the byte at SP is defined and SP is not 255: pc becomes the byte (R131; the spec's decision D4). -/
def Obligations.ReturnResult : Prop :=
  ∀ (s : State) (v sp : Byte), s.regs[7] = ⟨sp, true⟩ → Memory.get s.mem sp.toNat = some v → sp.toNat ≤ 254 →
    exec .ret s = .next { s with regs := s.regs.set 7 ⟨BitVec.ofNat 8 (sp.toNat + 1), true⟩, pc := v.toNat }

/-- JMP, JEQ and JNE complete where the register is defined, JEQ and JNE on both paths: exactly x[r] when taken, pc + 2
when not (R132, R133, R134; the register is read on both paths by the spec's decision D23). -/
def Obligations.JumpResults : Prop :=
  ∀ (s : State) (i : Fin 8) (t : Byte), s.regs[i] = ⟨t, true⟩ →
    exec (.jmp (regByte i)) s = .next { s with pc := t.toNat } ∧
    exec (.jeq (regByte i)) s = .next { s with pc := if s.fl = .equal then t.toNat else s.pc + 2 } ∧
    exec (.jne (regByte i)) s = .next { s with pc := if s.fl = .equal then s.pc + 2 else t.toNat }

/-! ## Where an instruction faults -/

/-- The stack and return-address faults, with nothing changed (R120, R121, R130, R131, R150; the spec's decisions D4 and
D6): PUSH and CALL at SP = 0, POP and RET whose new SP would be 256, CALL at address 254. -/
def Obligations.StackLimitFaults : Prop :=
  ∀ (s : State) (i : Fin 8) (sp : Byte), s.regs[7] = ⟨sp, true⟩ →
    (sp = 0 → exec (.push (regByte i)) s = .next (s.faultedWith (.outOfBounds .stackPointer) (-1)) ∧
      (s.pc ≤ 253 → exec (.call (regByte i)) s = .next (s.faultedWith (.outOfBounds .stackPointer) (-1)))) ∧
    (s.pc = 254 → exec (.call (regByte i)) s = .next (s.faultedWith (.outOfBounds .returnAddress) 256)) ∧
    (∀ v, Memory.get s.mem sp.toNat = some v → (if i = 7 then v else sp) = 255 →
      exec (.pop (regByte i)) s = .next (s.faultedWith (.outOfBounds .stackPointer) 256)) ∧
    (∀ v, Memory.get s.mem sp.toNat = some v → sp = 255 →
      exec .ret s = .next (s.faultedWith (.outOfBounds .stackPointer) 256))

/-- A read of an undefined register or stack byte raises UninitializedRead, with nothing changed (R22, R42, R150; the
spec's decisions D8, D9, D23): PRN, JMP, JEQ, JNE, the two operands of ADD, MUL and CMP in order, PUSH and CALL once their
earlier checks pass, POP and RET at SP. -/
def Obligations.UndefinedReadFaults : Prop :=
  ∀ (s : State) (i : Fin 8), s.regs[i].defined = false →
    (∀ k ∈ [Instr.prn (regByte i), .jmp (regByte i), .jeq (regByte i), .jne (regByte i)],
      exec k s = .next (s.faultedWith (.uninitializedRead .register) i.val)) ∧
    (∀ j : Fin 8, ∀ k ∈ [Instr.add (regByte i) (regByte j), .mul (regByte i) (regByte j), .cmp (regByte i) (regByte j)],
      exec k s = .next (s.faultedWith (.uninitializedRead .register) i.val)) ∧
    (∀ j : Fin 8, s.regs[j].defined = true →
      ∀ k ∈ [Instr.add (regByte j) (regByte i), .mul (regByte j) (regByte i), .cmp (regByte j) (regByte i)],
      exec k s = .next (s.faultedWith (.uninitializedRead .register) i.val)) ∧
    (∀ sp : Byte, s.regs[7] = ⟨sp, true⟩ → sp.toNat ≠ 0 →
      exec (.push (regByte i)) s = .next (s.faultedWith (.uninitializedRead .register) i.val) ∧
      (s.pc ≤ 253 → exec (.call (regByte i)) s = .next (s.faultedWith (.uninitializedRead .register) i.val)))

/-- POP and RET where the byte at SP is undefined (R121, R131, R42; the spec's decision D9). -/
def Obligations.UndefinedStackByteFaults : Prop :=
  ∀ (s : State) (i : Fin 8) (sp : Byte), s.regs[7] = ⟨sp, true⟩ → Memory.get s.mem sp.toNat = none →
    exec (.pop (regByte i)) s = .next (s.faultedWith (.uninitializedRead .memory) sp.toNat) ∧
    exec .ret s = .next (s.faultedWith (.uninitializedRead .memory) sp.toNat)

/-! ## Frames: what each instruction leaves unchanged, completed or faulted -/

/-- HLT, PRN, CMP, JMP, JEQ and JNE, for every operand byte: no register and no byte of memory changes; FL changes only by
CMP, out only by PRN, and the status only by HLT or a fault (R21, R26, R29, R32, R43). -/
def Obligations.FrameOfReaders : Prop :=
  ∀ (s t : State) (r q : Byte), ∀ k ∈ [Instr.hlt, .prn r, .cmp r q, .jmp r, .jeq r, .jne r], exec k s = .next t →
    t.regs = s.regs ∧ (∀ a, Memory.get t.mem a = Memory.get s.mem a) ∧
    (k ≠ .cmp r q → t.fl = s.fl) ∧ (k ≠ .prn r → t.out = s.out) ∧
    (k ≠ .hlt → t.status = s.status ∨ t.isFaulted = true)

/-- LDI, ADD and MUL, for every operand byte: only the destination register changes (R21, R43). -/
def Obligations.FrameOfRegisterWriters : Prop :=
  ∀ (s t : State) (r q : Byte), ∀ k ∈ [Instr.ldi r q, .add r q, .mul r q], exec k s = .next t →
    (∀ j : Fin 8, regByte j ≠ r → t.regs[j] = s.regs[j]) ∧ (∀ a, Memory.get t.mem a = Memory.get s.mem a) ∧
    t.fl = s.fl ∧ t.out = s.out ∧ (t.status = s.status ∨ t.isFaulted = true)

/-- POP and RET, for every operand byte: only R7, and for POP the destination register, change (R21, R43); no byte of
memory changes. -/
def Obligations.FrameOfPops : Prop :=
  ∀ (s t : State) (r : Byte), ∀ k ∈ [Instr.pop r, .ret], exec k s = .next t →
    (∀ j : Fin 8, j ≠ 7 → (k = .ret ∨ regByte j ≠ r) → t.regs[j] = s.regs[j]) ∧
    (∀ a, Memory.get t.mem a = Memory.get s.mem a) ∧
    t.fl = s.fl ∧ t.out = s.out ∧ (t.status = s.status ∨ t.isFaulted = true)

/-- PUSH and CALL, for every operand byte: only R7 changes, and only the one byte at the address `pushPointer` gives, SP - 1;
where it gives none, no byte changes (R21, R43, R41). -/
def Obligations.FrameOfPushes : Prop :=
  ∀ (s t : State) (r : Byte), ∀ k ∈ [Instr.push r, .call r], exec k s = .next t →
    (∀ j : Fin 8, j ≠ 7 → t.regs[j] = s.regs[j]) ∧
    (∀ a, (∀ sp', pushPointer s = .ok sp' → a ≠ sp'.toNat) → Memory.get t.mem a = Memory.get s.mem a) ∧
    t.fl = s.fl ∧ t.out = s.out ∧ (t.status = s.status ∨ t.isFaulted = true)

/-! ## Laws of instruction pairs -/

/-- 43_stack.md R123, the pair PUSH a; POP b: for a, b in 0..6 x[b] gets the old x[a], SP is unchanged and the byte stays
in memory; then the three register-7 cases. -/
def Obligations.PushThenPop : Prop :=
  ∀ (s : State) (i j : Fin 8) (v sp : Byte), s.regs[i] = ⟨v, true⟩ → s.regs[7] = ⟨sp, true⟩ → sp.toNat ≠ 0 →
    ∃ t, exec (.push (regByte i)) s = .next t ∧
      (i ≠ 7 → j ≠ 7 → ∃ u, exec (.pop (regByte j)) t = .next u ∧ u.regs[j] = ⟨v, true⟩ ∧ u.regs[7] = ⟨sp, true⟩ ∧
        Memory.get u.mem (sp.toNat - 1) = some v) ∧
      (i = 7 → j = 7 → ∃ u, exec (.pop (regByte j)) t = .next u ∧ u.regs[7] = ⟨sp, true⟩) ∧
      (i = 7 → j ≠ 7 → ∃ u, exec (.pop (regByte j)) t = .next u ∧
        u.regs[j] = ⟨BitVec.ofNat 8 (sp.toNat - 1), true⟩ ∧ u.regs[7] = ⟨sp, true⟩) ∧
      (i ≠ 7 → j = 7 → v.toNat ≤ 254 → ∃ u, exec (.pop (regByte j)) t = .next u ∧
        u.regs[7] = ⟨BitVec.ofNat 8 (v.toNat + 1), true⟩)

/-- 43_stack.md R123, LIFO: PUSH a; PUSH b; POP c; POP d gives x[c] = old x[b] and x[d] = old x[a], for registers 0..6. -/
def Obligations.LastInFirstOut : Prop :=
  ∀ (s : State) (i j k l : Fin 8) (v w sp : Byte), i ≠ 7 → j ≠ 7 → k ≠ 7 → l ≠ 7 → k ≠ l →
    s.regs[i] = ⟨v, true⟩ → s.regs[j] = ⟨w, true⟩ → s.regs[7] = ⟨sp, true⟩ → 2 ≤ sp.toNat →
    ∃ t u x y, exec (.push (regByte i)) s = .next t ∧ exec (.push (regByte j)) t = .next u ∧
      exec (.pop (regByte k)) u = .next x ∧ exec (.pop (regByte l)) x = .next y ∧
      y.regs[k] = ⟨w, true⟩ ∧ y.regs[l] = ⟨v, true⟩ ∧ y.regs[7] = ⟨sp, true⟩

/-- 44_control_transfer.md R136: after a completed CALL, a RET reached with SP as the CALL left it and the byte there still
the one it wrote returns to the address after the CALL, and SP is as before the CALL. -/
def Obligations.CallThenReturn : Prop :=
  ∀ (s t u : State) (r : Byte), s.isFaulted = false → exec (.call r) s = .next t → t.isFaulted = false →
    u.regs[7] = t.regs[7] → Memory.get u.mem t.regs[7].value.toNat = Memory.get t.mem t.regs[7].value.toNat →
    exec .ret u = .next { u with regs := u.regs.set 7 s.regs[7], pc := s.pc + 2 }

/-- 44_control_transfer.md R137: after a CMP of p and q, and until FL is written again, JEQ is taken iff p = q and JNE iff
p ≠ q; not taken, pc moves past the branch. -/
def Obligations.BranchAfterCompare : Prop :=
  ∀ (s u : State) (i j k : Fin 8) (p q a : Byte), s.regs[i] = ⟨p, true⟩ → s.regs[j] = ⟨q, true⟩ →
    ∃ t, exec (.cmp (regByte i) (regByte j)) s = .next t ∧
      (u.fl = t.fl → u.regs[k] = ⟨a, true⟩ →
        exec (.jeq (regByte k)) u = .next { u with pc := if p = q then a.toNat else u.pc + 2 } ∧
        exec (.jne (regByte k)) u = .next { u with pc := if p = q then u.pc + 2 else a.toNat })

/-! ## The ALU -/

/-- 42_alu.md R110 and R114: the laws of add, mul and cmp on unsigned bytes, and UnsupportedOperation for any other
request (the spec's decision D18; that a request is numbered by a Nat is log entry 12). -/
def Obligations.AluLaws : Prop :=
  ∀ p q : Byte,
    (∃ v, alu .add p q = .ok (.byte v) ∧ v.toNat = (p.toNat + q.toNat) % 256) ∧
    (∃ v, alu .mul p q = .ok (.byte v) ∧ v.toNat = (p.toNat * q.toNat) % 256) ∧
    alu .cmp p q = .ok (.flags (if p = q then .equal else if q.toNat < p.toNat then .greater else .less)) ∧
    ∀ code : Nat, alu (.other code) p q = .error ⟨.unsupportedOperation, code⟩

/-- 42_alu.md R110 (the spec's decision D18): no step raises UnsupportedOperation. -/
def Obligations.NoUnsupportedOperation : Prop :=
  ∀ s t r, step s = .next t → t.status = .faulted r → r.kind ≠ .unsupportedOperation
end

