-- ==== Sys2Proof/Laws/Decode.lean ====
section
/-! SUPPORT. The decoder's parts (30_encoding.md rules R62 to R70), one lemma for each. -/

namespace Sys2Proof

/-- The byte of an opcode names that opcode. -/
@[simp] theorem lookup_byte (o : Opcode) : lookup o.byte = some o := by cases o <;> rfl

theorem byte_of_find {l : List Opcode} {ir : Byte} {o : Opcode} (h : l.find? (fun o => o.byte == ir) = some o) :
    o.byte = ir := by
  simpa using List.find?_some h

/-- A byte names an opcode exactly when it is that opcode's byte (30_encoding.md R63). -/
theorem lookup_eq_some {ir : Byte} {o : Opcode} : lookup ir = some o ↔ ir = o.byte := by
  constructor
  · intro h; exact (byte_of_find h).symm
  · rintro rfl; exact lookup_byte o

/-- Every opcode is in the list of all opcodes. -/
theorem mem_all (o : Opcode) : o ∈ Opcode.all := by cases o <;> decide

/-- A byte names no opcode exactly when it is the byte of none (30_encoding.md R66). -/
theorem lookup_eq_none {ir : Byte} : lookup ir = none ↔ ∀ o : Opcode, ir ≠ o.byte := by
  constructor
  · intro h o e; rw [lookup_eq_some.mpr e] at h; exact absurd h (by simp)
  · intro h
    cases hl : lookup ir with
    | none => rfl
    | some o => exact absurd (lookup_eq_some.mp hl) (h o)

/-- The operand bytes of an assembled instruction are as many as field AA of its opcode byte says (30_encoding.md R68). -/
theorem operandCount_byte (o : Opcode) :
    operandCount o.byte = match o.format with | .N => 0 | .R => 1 | .RR => 2 | .RI => 2 := by
  cases o <;> decide

@[simp] theorem opcode_assemble (o : Opcode) (a b : Byte) : (o.assemble a b).opcode = o := by cases o <;> rfl

/-- The field check passes exactly when every register field is below 8 (40_execution_cycle.md R84). -/
theorem badField_eq_none {o : Opcode} {a b : Byte} : o.badField a b = none ↔ (o.assemble a b).WellFormed := by
  cases o <;>
    simp [Opcode.badField, Opcode.format, Format.registerFields, Opcode.assemble, Instr.WellFormed, Instr.wellFormed,
      isReg, Nat.lt_succ_iff]

/-- Decoding with operands passes exactly for an opcode byte and operand bytes that make a well-formed instruction. -/
theorem decodeInstr_eq_ok {ir a b : Byte} {i : Instr} :
    decodeInstr ir a b = .ok i ↔ ∃ o : Opcode, ir = o.byte ∧ i = o.assemble a b ∧ i.WellFormed := by
  unfold decodeInstr
  constructor
  · intro h
    split at h
    · exact absurd h (by simp)
    · next o ho =>
      split at h
      · exact absurd h (by simp)
      · next hb =>
        have e : o.assemble a b = i := by simpa using h
        exact ⟨o, lookup_eq_some.mp ho, e.symm, e ▸ badField_eq_none.mp hb⟩
  · rintro ⟨o, rfl, rfl, hw⟩
    simp only [lookup_byte]
    rw [badField_eq_none.mpr hw]

/-- The register field check raises the first field above 7 (40_execution_cycle.md R84). -/
theorem badField_eq_some {o : Opcode} {a b v : Byte} :
    o.badField a b = some v ↔
      match o.format with
      | .N => False
      | .R => 7 < a.toNat ∧ v = a
      | .RI => 7 < a.toNat ∧ v = a
      | .RR => (7 < a.toNat ∧ v = a) ∨ (a.toNat ≤ 7 ∧ 7 < b.toNat ∧ v = b) := by
  unfold Opcode.badField
  cases o.format with
  | N => simp [Format.registerFields]
  | R => simp [Format.registerFields, List.find?_cons]; split <;> simp_all [eq_comm]
  | RI => simp [Format.registerFields, List.find?_cons]; split <;> simp_all [eq_comm]
  | RR =>
    simp only [Format.registerFields, List.find?_cons, List.find?_nil]
    by_cases ha : 7 < a.toNat
    · simp [ha, eq_comm]
    · by_cases hb : 7 < b.toNat
      · simp [ha, hb, eq_comm]; omega
      · simp [ha, hb]

end Sys2Proof
end

