-- ==== Sys2Proof/Laws/Memory.lean ====
section
/-! SUPPORT. Memory (20_memory.md rules R40 to R42): a read after a write, and that every memory operation keeps the
canonical form. -/

namespace Sys2Proof.Machine

@[simp] theorem Memory.get_nil (a : Nat) : Memory.get [] a = none := rfl

/-- A read of the address written gives the byte written (20_memory.md R41). -/
@[simp] theorem Memory.get_set_self (m : Memory) (a : Nat) (v : Byte) : Memory.get (Memory.set m a v) a = some v := by
  induction m with
  | nil => simp [Memory.set, Memory.get]
  | cons c rest ih =>
    obtain ⟨b, w⟩ := c
    simp only [Memory.set]
    split
    · simp [Memory.get]
    · split
      · simp [Memory.get]
      · rename_i _ hne
        simp [Memory.get, ih, Ne.symm hne]

/-- A write changes no other byte (20_memory.md R41, R46). -/
theorem Memory.get_set_other (m : Memory) {a b : Nat} (v : Byte) (h : b ≠ a) :
    Memory.get (Memory.set m a v) b = Memory.get m b := by
  induction m with
  | nil => simp [Memory.set, Memory.get, Ne.symm h]
  | cons c rest ih =>
    obtain ⟨x, w⟩ := c
    simp only [Memory.set]
    split
    · simp [Memory.get, Ne.symm h]
    · split
      · rename_i _ e
        subst e
        simp [Memory.get, Ne.symm h]
      · simp [Memory.get, ih]

/-- A read after a write, at any address. -/
theorem Memory.get_set (m : Memory) (a b : Nat) (v : Byte) :
    Memory.get (Memory.set m a v) b = if b = a then some v else Memory.get m b := by
  split
  · next h => rw [h, Memory.get_set_self]
  · next h => exact Memory.get_set_other m v h

theorem Memory.wfFrom_mono {m : Memory} {j k : Nat} (h : Memory.wfFrom k m = true) (hjk : j ≤ k) :
    Memory.wfFrom j m = true := by
  cases m with
  | nil => rfl
  | cons c rest =>
    obtain ⟨b, w⟩ := c
    simp only [Memory.wfFrom, Bool.and_eq_true, decide_eq_true_eq] at h ⊢
    exact ⟨⟨by omega, h.1.2⟩, h.2⟩

theorem Memory.set_wfFrom {m : Memory} {k a : Nat} (v : Byte) (h : Memory.wfFrom k m = true) (hk : k ≤ a)
    (ha : a < Config.memSize) : Memory.wfFrom k (Memory.set m a v) = true := by
  induction m generalizing k with
  | nil => simp [Memory.set, Memory.wfFrom, hk, ha]
  | cons c rest ih =>
    obtain ⟨b, w⟩ := c
    simp only [Memory.wfFrom, Bool.and_eq_true, decide_eq_true_eq] at h
    obtain ⟨⟨hkb, hb⟩, hrest⟩ := h
    simp only [Memory.set]
    split
    · next hab =>
      have hcons : Memory.wfFrom (a + 1) ((b, w) :: rest) = true := by
        simp only [Memory.wfFrom, Bool.and_eq_true, decide_eq_true_eq]
        exact ⟨⟨by omega, hb⟩, hrest⟩
      rw [Memory.wfFrom]
      simp [hk, ha, hcons]
    · split
      · next e => subst e; simp [Memory.wfFrom, hk, ha, hrest]
      · simp [Memory.wfFrom, hkb, hb, ih hrest (by omega)]

/-- A write inside the address space keeps the canonical form. -/
theorem Memory.set_wf {m : Memory} {a : Nat} (v : Byte) (h : m.wf = true) (ha : a < Config.memSize) :
    (Memory.set m a v).wf = true :=
  Memory.set_wfFrom v h (Nat.zero_le a) ha

/-- Placing a list of bytes keeps the canonical form, whatever its length (70_reset_and_hazards.md R182). -/
theorem Memory.place_wf (bs : List Byte) (m : Memory) (a : Nat) (h : m.wf = true) : (Memory.place m a bs).wf = true := by
  induction bs generalizing m a with
  | nil => exact h
  | cons b rest ih =>
    simp only [Memory.place]
    split
    · next ha => exact ih _ _ (Memory.set_wf b h ha)
    · exact h

/-- What memory reads as after bytes are placed inside the address space: the bytes where they were placed, and the old
memory elsewhere. -/
theorem Memory.get_place (bs : List Byte) (m : Memory) (a x : Nat) (h : a + bs.length ≤ Config.memSize) :
    Memory.get (Memory.place m a bs) x =
      if a ≤ x ∧ x < a + bs.length then bs[x - a]? else Memory.get m x := by
  induction bs generalizing m a with
  | nil => simp only [Memory.place, List.length_nil, Nat.add_zero]; rw [if_neg (by omega)]
  | cons b rest ih =>
    simp only [List.length_cons] at h
    have ha : a < Config.memSize := by omega
    simp only [Memory.place, if_pos ha, List.length_cons]
    rw [ih _ _ (by omega), Memory.get_set]
    by_cases e : x = a
    · subst e
      rw [if_neg (by omega), if_pos rfl, if_pos (by omega)]
      simp
    · by_cases hx : a + 1 ≤ x ∧ x < a + 1 + rest.length
      · rw [if_pos hx, if_pos (by omega)]
        have : x - a = (x - (a + 1)) + 1 := by omega
        rw [this]
        simp
      · rw [if_neg hx, if_neg e, if_neg (by omega)]

theorem Memory.get_none_of_lt {m : Memory} {k a : Nat} (h : Memory.wfFrom k m = true) (ha : a < k) :
    Memory.get m a = none := by
  induction m generalizing k with
  | nil => rfl
  | cons c rest ih =>
    obtain ⟨b, w⟩ := c
    simp only [Memory.wfFrom, Bool.and_eq_true, decide_eq_true_eq] at h
    rw [Memory.get, if_neg (by omega)]
    exact ih h.2 (by omega)

/-- A canonical memory lists nothing outside 0..255 (20_memory.md R40). -/
theorem Memory.get_none_of_wf {m : Memory} {a : Nat} (h : m.wf = true) (ha : Config.memSize ≤ a) :
    Memory.get m a = none := by
  have key : ∀ (k : Nat) (m : Memory), Memory.wfFrom k m = true → Memory.get m a = none := by
    intro k m
    induction m generalizing k with
    | nil => intro _; rfl
    | cons c rest ih =>
      obtain ⟨b, w⟩ := c
      intro h
      simp only [Memory.wfFrom, Bool.and_eq_true, decide_eq_true_eq] at h
      rw [Memory.get, if_neg (by omega)]
      exact ih _ h.2
  exact key 0 m h

/-- Canonical memories that read alike everywhere are the same data. -/
theorem Memory.ext_of_wfFrom {m n : Memory} {k : Nat} (hm : Memory.wfFrom k m = true) (hn : Memory.wfFrom k n = true)
    (h : ∀ a, Memory.get m a = Memory.get n a) : m = n := by
  induction m generalizing n k with
  | nil =>
    cases n with
    | nil => rfl
    | cons c rest => obtain ⟨b, w⟩ := c; have := h b; simp [Memory.get, Memory.unlisted] at this
  | cons c rest ih =>
    obtain ⟨b, w⟩ := c
    cases n with
    | nil => have := h b; simp [Memory.get, Memory.unlisted] at this
    | cons d rest' =>
      obtain ⟨b', w'⟩ := d
      simp only [Memory.wfFrom, Bool.and_eq_true, decide_eq_true_eq] at hm hn
      have hbb : b = b' := by
        rcases Nat.lt_trichotomy b b' with hlt | heq | hgt
        · have := h b
          rw [Memory.get, if_pos rfl, Memory.get, if_neg (by omega), Memory.get_none_of_lt hn.2 (by omega)] at this
          exact absurd this (by simp)
        · exact heq
        · have := h b'
          rw [Memory.get, if_neg (by omega), Memory.get_none_of_lt hm.2 (by omega), Memory.get, if_pos rfl] at this
          exact absurd this (by simp)
      subst hbb
      have hw : w = w' := by have := h b; simpa [Memory.get] using this
      subst hw
      have hrest : rest = rest' := by
        refine ih hm.2 hn.2 fun a => ?_
        by_cases e : b = a
        · subst e; rw [Memory.get_none_of_lt hm.2 (by omega), Memory.get_none_of_lt hn.2 (by omega)]
        · have := h a; rwa [Memory.get, if_neg e, Memory.get, if_neg e] at this
      rw [hrest]

end Sys2Proof.Machine
end

