-- ==== Sys2Proof/Laws/State.lean ====
section
/-! SUPPORT. One lemma for each field under each update of the state (Machine/Ops.lean), true by unfolding it once, so that
no later proof unfolds a record update. -/

namespace Sys2Proof.Machine

variable (s : State)

/-! ### memWrite -/

@[simp] theorem memWrite_regs (a v : Byte) : (memWrite s a v).regs = s.regs := rfl
@[simp] theorem memWrite_pc (a v : Byte) : (memWrite s a v).pc = s.pc := rfl
@[simp] theorem memWrite_fl (a v : Byte) : (memWrite s a v).fl = s.fl := rfl
@[simp] theorem memWrite_status (a v : Byte) : (memWrite s a v).status = s.status := rfl
@[simp] theorem memWrite_mem (a v : Byte) : (memWrite s a v).mem = Memory.set s.mem a.toNat v := rfl
@[simp] theorem memWrite_out (a v : Byte) : (memWrite s a v).out = s.out := rfl

/-! ### writeReg -/

@[simp] theorem writeReg_regs (i : Fin 8) (v : Byte) : (writeReg s i v).regs = s.regs.set i.val ⟨v, true⟩ := rfl
@[simp] theorem writeReg_pc (i : Fin 8) (v : Byte) : (writeReg s i v).pc = s.pc := rfl
@[simp] theorem writeReg_fl (i : Fin 8) (v : Byte) : (writeReg s i v).fl = s.fl := rfl
@[simp] theorem writeReg_status (i : Fin 8) (v : Byte) : (writeReg s i v).status = s.status := rfl
@[simp] theorem writeReg_mem (i : Fin 8) (v : Byte) : (writeReg s i v).mem = s.mem := rfl
@[simp] theorem writeReg_out (i : Fin 8) (v : Byte) : (writeReg s i v).out = s.out := rfl

/-! ### setPc -/

@[simp] theorem setPc_regs (t : Nat) : (setPc s t).regs = s.regs := rfl
@[simp] theorem setPc_pc (t : Nat) : (setPc s t).pc = t := rfl
@[simp] theorem setPc_fl (t : Nat) : (setPc s t).fl = s.fl := rfl
@[simp] theorem setPc_status (t : Nat) : (setPc s t).status = s.status := rfl
@[simp] theorem setPc_mem (t : Nat) : (setPc s t).mem = s.mem := rfl
@[simp] theorem setPc_out (t : Nat) : (setPc s t).out = s.out := rfl

/-! ### setFl -/

@[simp] theorem setFl_regs (f : FlagState) : (setFl s f).regs = s.regs := rfl
@[simp] theorem setFl_pc (f : FlagState) : (setFl s f).pc = s.pc := rfl
@[simp] theorem setFl_fl (f : FlagState) : (setFl s f).fl = f := rfl
@[simp] theorem setFl_status (f : FlagState) : (setFl s f).status = s.status := rfl
@[simp] theorem setFl_mem (f : FlagState) : (setFl s f).mem = s.mem := rfl
@[simp] theorem setFl_out (f : FlagState) : (setFl s f).out = s.out := rfl

/-! ### emit -/

@[simp] theorem emit_regs (v : Byte) : (emit s v).regs = s.regs := rfl
@[simp] theorem emit_pc (v : Byte) : (emit s v).pc = s.pc := rfl
@[simp] theorem emit_fl (v : Byte) : (emit s v).fl = s.fl := rfl
@[simp] theorem emit_status (v : Byte) : (emit s v).status = s.status := rfl
@[simp] theorem emit_mem (v : Byte) : (emit s v).mem = s.mem := rfl
@[simp] theorem emit_out (v : Byte) : (emit s v).out = s.out ++ [v] := rfl

/-! ### halt -/

@[simp] theorem halt_regs : (halt s).regs = s.regs := rfl
@[simp] theorem halt_pc : (halt s).pc = s.pc := rfl
@[simp] theorem halt_fl : (halt s).fl = s.fl := rfl
@[simp] theorem halt_status : (halt s).status = .halted := rfl
@[simp] theorem halt_mem : (halt s).mem = s.mem := rfl
@[simp] theorem halt_out : (halt s).out = s.out := rfl

/-! ### takeFault -/

@[simp] theorem takeFault_regs (r : Raise) : (takeFault s r).regs = s.regs := rfl
@[simp] theorem takeFault_pc (r : Raise) : (takeFault s r).pc = s.pc := rfl
@[simp] theorem takeFault_fl (r : Raise) : (takeFault s r).fl = s.fl := rfl
@[simp] theorem takeFault_status (r : Raise) : (takeFault s r).status = .faulted ⟨r.kind, s.pc, r.info⟩ := rfl
@[simp] theorem takeFault_mem (r : Raise) : (takeFault s r).mem = s.mem := rfl
@[simp] theorem takeFault_out (r : Raise) : (takeFault s r).out = s.out := rfl

/-! ### withFetchWord -/

@[simp] theorem withFetchWord_regs (nbits w : Nat) : (s.withFetchWord nbits w).regs = s.regs := rfl
@[simp] theorem withFetchWord_pc (nbits w : Nat) : (s.withFetchWord nbits w).pc = s.pc := rfl
@[simp] theorem withFetchWord_fl (nbits w : Nat) : (s.withFetchWord nbits w).fl = s.fl := rfl
@[simp] theorem withFetchWord_status (nbits w : Nat) : (s.withFetchWord nbits w).status = s.status := rfl
@[simp] theorem withFetchWord_mem (nbits w : Nat) : (s.withFetchWord nbits w).mem = Memory.place s.mem s.pc (tableBytes nbits w) := rfl
@[simp] theorem withFetchWord_out (nbits w : Nat) : (s.withFetchWord nbits w).out = s.out := rfl

/-! ### registers, read by index -/

/-- A register written reads as the byte written, and is defined (10_state.md R22). -/
@[simp] theorem writeReg_self (i : Fin 8) (v : Byte) : (writeReg s i v).regs[i] = ⟨v, true⟩ := by
  simp [writeReg]

/-- A write to one register leaves every other (10_state.md R20). -/
theorem writeReg_other {i j : Fin 8} (h : j ≠ i) (v : Byte) : (writeReg s i v).regs[j] = s.regs[j] := by
  have hv : i.val ≠ j.val := fun e => h (Fin.ext e.symm)
  simp [writeReg, Vector.getElem_set_ne, hv]

/-- A write to a register keeps every mark that was set. -/
theorem writeReg_defined {i j : Fin 8} (v : Byte) (h : s.regs[j].defined = true) :
    (writeReg s i v).regs[j].defined = true := by
  by_cases e : j = i
  · subst e; simp
  · rw [writeReg_other s e]; exact h

/-- A register cell set reads as the cell set. -/
@[simp] theorem set_get (r : Vector RegCell 8) (i : Fin 8) (c : RegCell) : (r.set i.val c)[i] = c := by simp

/-- A register cell set leaves every other. -/
theorem set_get_ne {r : Vector RegCell 8} {i j : Fin 8} (c : RegCell) (h : j ≠ i) : (r.set i.val c)[j] = r[j] :=
  Vector.getElem_set_ne _ _ fun e => h (Fin.ext e.symm)

/-- A defined register is a cell with the mark set. -/
theorem cell_of_defined {c : RegCell} (h : c.defined = true) : c = ⟨c.value, true⟩ := by
  cases c; simp_all

/-- Setting a register cell to a defined one keeps every mark that was set. -/
theorem set_defined {r : Vector RegCell 8} {j : Fin 8} {i : Nat} (hi : i < 8) (v : Byte) (h : r[j].defined = true) :
    (r.set i ⟨v, true⟩)[j].defined = true := by
  by_cases e : i = j.val
  · subst e; simp
  · simp only [Fin.getElem_fin] at h ⊢; rw [Vector.getElem_set_ne _ _ e]; exact h

end Sys2Proof.Machine
end

