-- ==== Sys2Proof/Laws/Ops.lean ====
section
/-! SUPPORT. One lemma for each shared operation that says everything it can do: what it answers, and under which
condition. Later proofs cite these and do not unfold the operation. -/

namespace Sys2Proof.Machine

/-! ## Checks in sequence -/

/-- A sequence of checks passes exactly when the first passes and the rest passes on what it found. -/
theorem bind_eq_ok {ε α β : Type} {x : Except ε α} {f : α → Except ε β} {b : β} :
    (x >>= f) = .ok b ↔ ∃ a, x = .ok a ∧ f a = .ok b := by
  cases x with
  | error e => simp [bind, Except.bind]
  | ok a => simp [bind, Except.bind]

/-- A sequence of checks raises exactly where the first raises, or it passes and the rest raises. -/
theorem bind_eq_error {ε α β : Type} {x : Except ε α} {f : α → Except ε β} {e : ε} :
    (x >>= f) = .error e ↔ x = .error e ∨ ∃ a, x = .ok a ∧ f a = .error e := by
  cases x with
  | error e' => simp [bind, Except.bind]
  | ok a => simp [bind, Except.bind]

@[simp] theorem ok_bind {ε α β : Type} (a : α) (f : α → Except ε β) : ((.ok a : Except ε α) >>= f) = f a := rfl

@[simp] theorem error_bind {ε α β : Type} (e : ε) (f : α → Except ε β) :
    ((.error e : Except ε α) >>= f) = .error e := rfl

@[simp] theorem except_pure {ε α : Type} (a : α) : (pure a : Except ε α) = .ok a := rfl

/-! ## Ending an instruction -/

@[simp] theorem settle_ok (s t : State) : settle s (.ok t) = .next t := rfl

@[simp] theorem settle_error (s : State) (r : Raise) : settle s (.error r) = .next (takeFault s r) := rfl

/-- An instruction ends in its committed state, or in the fault its checks raised, and in nothing else. -/
theorem settle_next {s t : State} {x : Except Raise State} :
    settle s x = .next t ↔ x = .ok t ∨ ∃ r, x = .error r ∧ t = takeFault s r := by
  cases x with
  | ok u => simp
  | error r => simp [eq_comm]

/-- Taking a fault is `State.faultedWith` of its kind and info (40_execution_cycle.md R87). -/
theorem takeFault_eq (s : State) (r : Raise) : takeFault s r = s.faultedWith r.kind r.info := rfl

@[simp] theorem faultedWith_regs (s : State) (k : FaultKind) (n : Int) : (s.faultedWith k n).regs = s.regs := rfl
@[simp] theorem faultedWith_pc (s : State) (k : FaultKind) (n : Int) : (s.faultedWith k n).pc = s.pc := rfl
@[simp] theorem faultedWith_fl (s : State) (k : FaultKind) (n : Int) : (s.faultedWith k n).fl = s.fl := rfl
@[simp] theorem faultedWith_mem (s : State) (k : FaultKind) (n : Int) : (s.faultedWith k n).mem = s.mem := rfl
@[simp] theorem faultedWith_out (s : State) (k : FaultKind) (n : Int) : (s.faultedWith k n).out = s.out := rfl
@[simp] theorem faultedWith_status (s : State) (k : FaultKind) (n : Int) :
    (s.faultedWith k n).status = .faulted ⟨k, s.pc, n⟩ := rfl

/-- A state is faulted exactly when its status carries a record. -/
theorem isFaulted_iff (s : State) : s.isFaulted = true ↔ ∃ r, s.status = .faulted r := by
  unfold State.isFaulted
  cases s.status <;> simp

@[simp] theorem takeFault_isFaulted (s : State) (r : Raise) : (takeFault s r).isFaulted = true := rfl

@[simp] theorem faultedWith_isFaulted (s : State) (k : FaultKind) (n : Int) : (s.faultedWith k n).isFaulted = true := rfl

/-- The advance changes nothing but pc. -/
theorem advance_eq (ir : Byte) (s : State) : advance ir s = { s with pc := (advance ir s).pc } := by
  unfold advance; split <;> rfl

@[simp] theorem advance_regs (ir : Byte) (s : State) : (advance ir s).regs = s.regs := by rw [advance_eq]
@[simp] theorem advance_fl (ir : Byte) (s : State) : (advance ir s).fl = s.fl := by rw [advance_eq]
@[simp] theorem advance_status (ir : Byte) (s : State) : (advance ir s).status = s.status := by rw [advance_eq]
@[simp] theorem advance_mem (ir : Byte) (s : State) : (advance ir s).mem = s.mem := by rw [advance_eq]
@[simp] theorem advance_out (ir : Byte) (s : State) : (advance ir s).out = s.out := by rw [advance_eq]

/-- The advance by the opcode: past the operands of an opcode that does not set PC, and nothing for one that does
(40_execution_cycle.md R85). -/
theorem advance_opcode (o : Opcode) (s : State) :
    advance o.byte s =
      match o with
      | .hlt => setPc s (s.pc + 1)
      | .ldi => setPc s (s.pc + 3)
      | .prn => setPc s (s.pc + 2)
      | .mul => setPc s (s.pc + 3)
      | .add => setPc s (s.pc + 3)
      | .push => setPc s (s.pc + 2)
      | .pop => setPc s (s.pc + 2)
      | .call => s
      | .ret => s
      | .cmp => setPc s (s.pc + 3)
      | .jmp => s
      | .jeq => s
      | .jne => s := by
  cases o <;> rfl

/-! ## Operands -/

/-- A register field passes exactly for a byte that names a register, and gives that register (30_encoding.md R64). -/
theorem regField_eq_ok {b : Byte} {i : Fin 8} : regField b = .ok i ↔ b.toNat = i.val := by
  unfold regField
  split
  · next h => simp [Fin.ext_iff]
  · next h => simp; omega

/-- A register field raises exactly for a byte 8..255 (30_encoding.md R64). -/
theorem regField_eq_error {b : Byte} {r : Raise} :
    regField b = .error r ↔ 8 ≤ b.toNat ∧ r = raiseRegisterIndex b := by
  unfold regField
  split
  · next h => simp; omega
  · next h => simp [eq_comm]; omega

theorem regByte_toNat (i : Fin 8) : (regByte i).toNat = i.val := by
  simp only [regByte, BitVec.toNat_ofNat]
  omega

@[simp] theorem regField_regByte (i : Fin 8) : regField (regByte i) = .ok i :=
  regField_eq_ok.mpr (regByte_toNat i)

/-- A byte names register `i` exactly when it is `regByte i`. -/
theorem eq_regByte {b : Byte} {i : Fin 8} : b = regByte i ↔ b.toNat = i.val := by
  rw [← BitVec.toNat_inj, regByte_toNat]

theorem regFields_eq_ok {a b : Byte} {p : Fin 8 × Fin 8} :
    regFields a b = .ok p ↔ a.toNat = p.1.val ∧ b.toNat = p.2.val := by
  obtain ⟨i, j⟩ := p
  simp only [regFields, bind_eq_ok, regField_eq_ok, except_pure, Except.ok.injEq, Prod.mk.injEq]
  constructor
  · rintro ⟨i', hi, j', hj, rfl, rfl⟩; exact ⟨hi, hj⟩
  · rintro ⟨hi, hj⟩; exact ⟨i, hi, j, hj, rfl, rfl⟩

theorem regFields_eq_error {a b : Byte} {r : Raise} :
    regFields a b = .error r ↔
      (8 ≤ a.toNat ∧ r = raiseRegisterIndex a) ∨ (a.toNat < 8 ∧ 8 ≤ b.toNat ∧ r = raiseRegisterIndex b) := by
  simp only [regFields, bind_eq_error, regField_eq_error, regField_eq_ok, except_pure, reduceCtorEq, and_false,
    exists_false, or_false]
  constructor
  · rintro (h | ⟨i, hi, h⟩)
    · exact .inl h
    · exact .inr ⟨by omega, h⟩
  · rintro (h | ⟨ha, h⟩)
    · exact .inl h
    · exact .inr ⟨⟨a.toNat, ha⟩, rfl, h⟩

@[simp] theorem regFields_regByte (i j : Fin 8) : regFields (regByte i) (regByte j) = .ok (i, j) :=
  regFields_eq_ok.mpr ⟨regByte_toNat i, regByte_toNat j⟩

/-! ## Reads -/

/-- A register read passes exactly for a defined register (10_state.md R22). -/
theorem readReg_eq_ok {s : State} {i : Fin 8} {v : Byte} : readReg s i = .ok v ↔ s.regs[i] = ⟨v, true⟩ := by
  unfold readReg
  cases h : s.regs[i] with
  | mk w d => cases d <;> simp

/-- A register read raises exactly for an undefined register (10_state.md R22). -/
theorem readReg_eq_error {s : State} {i : Fin 8} {r : Raise} :
    readReg s i = .error r ↔ s.regs[i].defined = false ∧ r = raiseUninitRegister i := by
  unfold readReg
  cases h : s.regs[i] with
  | mk w d => cases d <;> simp [eq_comm]

/-- A memory read passes exactly for a defined byte (20_memory.md R42). -/
theorem memRead_eq_ok {s : State} {a v : Byte} : memRead s a = .ok v ↔ Memory.get s.mem a.toNat = some v := by
  unfold memRead
  split <;> simp_all

/-- A memory read raises exactly for an undefined byte (20_memory.md R42). -/
theorem memRead_eq_error {s : State} {a : Byte} {r : Raise} :
    memRead s a = .error r ↔ Memory.get s.mem a.toNat = none ∧ r = raiseUninitMemory a := by
  unfold memRead
  cases Memory.get s.mem a.toNat <;> simp [eq_comm]

/-- The read of a pushed or called register passes with the new SP for R7, else with the register (43_stack.md R120). -/
theorem readRegAfterPush_eq_ok {s : State} {i : Fin 8} {sp' v : Byte} :
    readRegAfterPush s i sp' = .ok v ↔ (i = 7 ∧ v = sp') ∨ (i ≠ 7 ∧ s.regs[i] = ⟨v, true⟩) := by
  unfold readRegAfterPush
  by_cases h : i = 7
  · simp [h, Config.spIndex, eq_comm]
  · rw [Config.spIndex, if_neg h, readReg_eq_ok]
    simp [h]

theorem readRegAfterPush_eq_error {s : State} {i : Fin 8} {sp' : Byte} {r : Raise} :
    readRegAfterPush s i sp' = .error r ↔ i ≠ 7 ∧ s.regs[i].defined = false ∧ r = raiseUninitRegister i := by
  unfold readRegAfterPush
  by_cases h : i = 7
  · simp [h, Config.spIndex]
  · rw [Config.spIndex, if_neg h, readReg_eq_error]
    simp [h]

/-! ## The stack and the return address -/

/-- A push finds its new SP exactly where SP is defined and not 0 (43_stack.md R120). -/
theorem pushPointer_eq_ok {s : State} {sp' : Byte} :
    pushPointer s = .ok sp' ↔
      ∃ sp : Byte, s.regs[7] = ⟨sp, true⟩ ∧ sp.toNat ≠ 0 ∧ sp' = BitVec.ofNat 8 (sp.toNat - 1) := by
  simp only [pushPointer, bind_eq_ok, readReg_eq_ok, Config.spIndex]
  constructor
  · rintro ⟨sp, hs, h⟩
    split at h
    · exact absurd h (by simp)
    · next h0 => exact ⟨sp, hs, h0, by simpa [eq_comm] using h⟩
  · rintro ⟨sp, hs, h0, rfl⟩
    exact ⟨sp, hs, by rw [if_neg h0]; rfl⟩

/-- A push raises exactly where SP is undefined (in no reachable state), or is 0 (43_stack.md R120). -/
theorem pushPointer_eq_error {s : State} {r : Raise} :
    pushPointer s = .error r ↔
      (s.regs[7].defined = false ∧ r = raiseUninitRegister 7) ∨ (s.regs[7] = ⟨0, true⟩ ∧ r = raiseStackPointer (-1)) := by
  simp only [pushPointer, bind_eq_error, readReg_eq_ok, readReg_eq_error, Config.spIndex]
  constructor
  · rintro (h | ⟨sp, hs, h⟩)
    · exact .inl h
    · split at h
      · next h0 =>
        have : sp = 0 := BitVec.eq_of_toNat_eq (by simpa using h0)
        subst this
        exact .inr ⟨hs, by simpa [eq_comm] using h⟩
      · exact absurd h (by simp)
  · rintro (h | ⟨hs, rfl⟩)
    · exact .inl h
    · exact .inr ⟨0, hs, rfl⟩

/-- A pop finds its new SP exactly where one more than the base is a byte (43_stack.md R121). -/
theorem popPointer_eq_ok {base sp' : Byte} :
    popPointer base = .ok sp' ↔ base.toNat + 1 ≤ 255 ∧ sp' = BitVec.ofNat 8 (base.toNat + 1) := by
  unfold popPointer
  split
  · next h => simp; omega
  · next h => simp [eq_comm]; omega

theorem popPointer_eq_error {base : Byte} {r : Raise} :
    popPointer base = .error r ↔ base.toNat = 255 ∧ r = raiseStackPointer 256 := by
  have hb := base.isLt
  unfold popPointer
  split
  · next h =>
    have e : base.toNat = 255 := by omega
    simp [e, eq_comm]
  · next h => simp; omega

/-- CALL finds its return address exactly where pc + 2 is a byte (44_control_transfer.md R130). -/
theorem returnAddress_eq_ok {s : State} {ret : Byte} :
    returnAddress s = .ok ret ↔ s.pc ≤ 253 ∧ ret = BitVec.ofNat 8 (s.pc + 2) := by
  unfold returnAddress
  split
  · next h => simp; omega
  · next h => simp [eq_comm]; omega

theorem returnAddress_eq_error {s : State} {r : Raise} :
    returnAddress s = .error r ↔ 254 ≤ s.pc ∧ r = raiseReturnAddress (s.pc + 2) := by
  unfold returnAddress
  split
  · next h => simp [eq_comm]; omega
  · next h => simp; omega

/-! ## Flags -/

@[simp] theorem isEqual_iff (f : FlagState) : isEqual f = true ↔ f = .equal := by cases f <;> simp [isEqual]

/-- The comparison sets E exactly for equal bytes (42_alu.md R113). -/
theorem compareFlags_equal (p q : Byte) : compareFlags p q = .equal ↔ p = q := by
  unfold compareFlags
  rw [← BitVec.toNat_inj]
  split
  · simp_all
  · split <;> simp_all

end Sys2Proof.Machine
end

