-- ==== Sys2Proof/Laws/Exec.lean ====
section
/-! SUPPORT. What each instruction can do, said once: it commits exactly in the cases of `Commits`, raises exactly in the
cases of `Raises`, and does nothing else. -/

namespace Sys2Proof.Machine

/-- The states an instruction commits, by the commits of its rule (41 R100-R102, 42 R111-R113, 43 R120-R121, 44
R130-R134). -/
def Commits (i : Instr) (s t : State) : Prop :=
  match i with
  | .hlt => t = { s with pc := s.pc + 1, status := .halted }
  | .ldi r v => ∃ k : Fin 8, r.toNat = k.val ∧ t = { s with regs := s.regs.set k ⟨v, true⟩, pc := s.pc + 3 }
  | .prn r => ∃ (k : Fin 8) (v : Byte), r.toNat = k.val ∧ s.regs[k] = ⟨v, true⟩ ∧
      t = { s with out := s.out ++ [v], pc := s.pc + 2 }
  | .mul ra rb => ∃ (j k : Fin 8) (p q : Byte), ra.toNat = j.val ∧ rb.toNat = k.val ∧
      s.regs[j] = ⟨p, true⟩ ∧ s.regs[k] = ⟨q, true⟩ ∧
      t = { s with regs := s.regs.set j ⟨BitVec.ofNat 8 ((p.toNat * q.toNat) % 256), true⟩, pc := s.pc + 3 }
  | .add ra rb => ∃ (j k : Fin 8) (p q : Byte), ra.toNat = j.val ∧ rb.toNat = k.val ∧
      s.regs[j] = ⟨p, true⟩ ∧ s.regs[k] = ⟨q, true⟩ ∧
      t = { s with regs := s.regs.set j ⟨BitVec.ofNat 8 ((p.toNat + q.toNat) % 256), true⟩, pc := s.pc + 3 }
  | .push r => ∃ (k : Fin 8) (sp v : Byte), r.toNat = k.val ∧ s.regs[7] = ⟨sp, true⟩ ∧ sp.toNat ≠ 0 ∧
      ((k = 7 ∧ v = BitVec.ofNat 8 (sp.toNat - 1)) ∨ (k ≠ 7 ∧ s.regs[k] = ⟨v, true⟩)) ∧
      t = { s with regs := s.regs.set 7 ⟨BitVec.ofNat 8 (sp.toNat - 1), true⟩, mem := Memory.set s.mem (sp.toNat - 1) v,
                   pc := s.pc + 2 }
  | .pop r => ∃ (k : Fin 8) (sp v : Byte), r.toNat = k.val ∧ s.regs[7] = ⟨sp, true⟩ ∧ Memory.get s.mem sp.toNat = some v ∧
      ((k = 7 ∧ v.toNat ≤ 254 ∧
          t = { s with regs := s.regs.set 7 ⟨BitVec.ofNat 8 (v.toNat + 1), true⟩, pc := s.pc + 2 }) ∨
       (k ≠ 7 ∧ sp.toNat ≤ 254 ∧
          t = { s with regs := (s.regs.set k ⟨v, true⟩).set 7 ⟨BitVec.ofNat 8 (sp.toNat + 1), true⟩, pc := s.pc + 2 }))
  | .call r => ∃ (k : Fin 8) (sp v : Byte), r.toNat = k.val ∧ s.pc ≤ 253 ∧ s.regs[7] = ⟨sp, true⟩ ∧ sp.toNat ≠ 0 ∧
      ((k = 7 ∧ v = BitVec.ofNat 8 (sp.toNat - 1)) ∨ (k ≠ 7 ∧ s.regs[k] = ⟨v, true⟩)) ∧
      t = { s with regs := s.regs.set 7 ⟨BitVec.ofNat 8 (sp.toNat - 1), true⟩
                   mem := Memory.set s.mem (sp.toNat - 1) (BitVec.ofNat 8 (s.pc + 2)), pc := v.toNat }
  | .ret => ∃ (sp v : Byte), s.regs[7] = ⟨sp, true⟩ ∧ Memory.get s.mem sp.toNat = some v ∧ sp.toNat ≤ 254 ∧
      t = { s with regs := s.regs.set 7 ⟨BitVec.ofNat 8 (sp.toNat + 1), true⟩, pc := v.toNat }
  | .cmp ra rb => ∃ (j k : Fin 8) (p q : Byte), ra.toNat = j.val ∧ rb.toNat = k.val ∧
      s.regs[j] = ⟨p, true⟩ ∧ s.regs[k] = ⟨q, true⟩ ∧
      t = { s with fl := compareFlags p q, pc := s.pc + 3 }
  | .jmp r => ∃ (k : Fin 8) (v : Byte), r.toNat = k.val ∧ s.regs[k] = ⟨v, true⟩ ∧ t = { s with pc := v.toNat }
  | .jeq r => ∃ (k : Fin 8) (v : Byte), r.toNat = k.val ∧ s.regs[k] = ⟨v, true⟩ ∧
      t = { s with pc := if isEqual s.fl then v.toNat else s.pc + 2 }
  | .jne r => ∃ (k : Fin 8) (v : Byte), r.toNat = k.val ∧ s.regs[k] = ⟨v, true⟩ ∧
      t = { s with pc := if isEqual s.fl then s.pc + 2 else v.toNat }

/-- The faults of a one-register rule that reads the register (41 R102, 44 R132-R134). -/
def RaisesRead (r : Byte) (s : State) (e : Raise) : Prop :=
  (8 ≤ r.toNat ∧ e = raiseRegisterIndex r) ∨
  ∃ k : Fin 8, r.toNat = k.val ∧ s.regs[k].defined = false ∧ e = raiseUninitRegister k

/-- The faults of ADD, MUL and CMP (42 R111-R113), op1 before op2. -/
def RaisesRead2 (ra rb : Byte) (s : State) (e : Raise) : Prop :=
  (8 ≤ ra.toNat ∧ e = raiseRegisterIndex ra) ∨
  (ra.toNat < 8 ∧ 8 ≤ rb.toNat ∧ e = raiseRegisterIndex rb) ∨
  ∃ j k : Fin 8, ra.toNat = j.val ∧ rb.toNat = k.val ∧
    ((s.regs[j].defined = false ∧ e = raiseUninitRegister j) ∨
     (s.regs[j].defined = true ∧ s.regs[k].defined = false ∧ e = raiseUninitRegister k))

/-- The faults of a push of register `k` once its field has passed (43 R120). -/
def RaisesPush (k : Fin 8) (s : State) (e : Raise) : Prop :=
  (s.regs[7].defined = false ∧ e = raiseUninitRegister 7) ∨
  (s.regs[7] = ⟨0, true⟩ ∧ e = raiseStackPointer (-1)) ∨
  ∃ sp : Byte, s.regs[7] = ⟨sp, true⟩ ∧ sp.toNat ≠ 0 ∧ k ≠ 7 ∧ s.regs[k].defined = false ∧ e = raiseUninitRegister k

/-- The faults of a pop whose new SP is one more than `base sp v` (43 R121, 44 R131). -/
def RaisesPop (base : Byte → Byte → Byte) (s : State) (e : Raise) : Prop :=
  (s.regs[7].defined = false ∧ e = raiseUninitRegister 7) ∨
  ∃ sp : Byte, s.regs[7] = ⟨sp, true⟩ ∧
    ((Memory.get s.mem sp.toNat = none ∧ e = raiseUninitMemory sp) ∨
     ∃ v, Memory.get s.mem sp.toNat = some v ∧ (base sp v).toNat = 255 ∧ e = raiseStackPointer 256)

/-- The faults an instruction raises, by the checks of its rule, the earliest first (60_exceptions.md R153). -/
def Raises (i : Instr) (s : State) (e : Raise) : Prop :=
  match i with
  | .hlt => False
  | .ldi r _ => 8 ≤ r.toNat ∧ e = raiseRegisterIndex r
  | .prn r => RaisesRead r s e
  | .mul ra rb => RaisesRead2 ra rb s e
  | .add ra rb => RaisesRead2 ra rb s e
  | .push r => (8 ≤ r.toNat ∧ e = raiseRegisterIndex r) ∨ ∃ k : Fin 8, r.toNat = k.val ∧ RaisesPush k s e
  | .pop r => (8 ≤ r.toNat ∧ e = raiseRegisterIndex r) ∨
      ∃ k : Fin 8, r.toNat = k.val ∧ RaisesPop (fun sp v => if k = 7 then v else sp) s e
  | .call r => (8 ≤ r.toNat ∧ e = raiseRegisterIndex r) ∨
      ∃ k : Fin 8, r.toNat = k.val ∧
        ((254 ≤ s.pc ∧ e = raiseReturnAddress (s.pc + 2)) ∨ (s.pc ≤ 253 ∧ RaisesPush k s e))
  | .ret => RaisesPop (fun sp _ => sp) s e
  | .cmp ra rb => RaisesRead2 ra rb s e
  | .jmp r => RaisesRead r s e
  | .jeq r => RaisesRead r s e
  | .jne r => RaisesRead r s e

/-! ## One lemma for each shape -/

theorem sub_one_toNat (sp : Byte) : (BitVec.ofNat 8 (sp.toNat - 1)).toNat = sp.toNat - 1 := by
  have := sp.isLt
  simp only [BitVec.toNat_ofNat]
  omega

theorem add_one_toNat {b : Byte} (h : b.toNat + 1 ≤ 255) : (BitVec.ofNat 8 (b.toNat + 1)).toNat = b.toNat + 1 := by
  simp only [BitVec.toNat_ofNat]
  omega

/-- A one-register rule: the checks pass exactly where the register is named and defined. -/
theorem read_eq_ok {r : Byte} {s : State} {f : Byte → State} {t : State} :
    (do let i ← regField r; let v ← readReg s i; return f v : Except Raise State) = .ok t ↔
      ∃ (k : Fin 8) (v : Byte), r.toNat = k.val ∧ s.regs[k] = ⟨v, true⟩ ∧ t = f v := by
  simp only [bind_eq_ok, regField_eq_ok, readReg_eq_ok, except_pure, Except.ok.injEq]
  constructor
  · rintro ⟨k, hk, v, hv, rfl⟩; exact ⟨k, v, hk, hv, rfl⟩
  · rintro ⟨k, v, hk, hv, rfl⟩; exact ⟨k, hk, v, hv, rfl⟩

theorem read_eq_error {r : Byte} {s : State} {f : Byte → State} {e : Raise} :
    (do let i ← regField r; let v ← readReg s i; return f v : Except Raise State) = .error e ↔ RaisesRead r s e := by
  simp only [bind_eq_error, regField_eq_ok, regField_eq_error, readReg_eq_error, except_pure, reduceCtorEq, and_false,
    exists_false, or_false, RaisesRead]

/-- The ALU shape commits exactly where both registers are named and defined, for an operation the ALU answers. -/
theorem execAlu_next {o : Opcode} {op : AluOp} {ra rb : Byte} {s t : State} (res : Byte → Byte → AluResult)
    (hop : ∀ p q, alu op p q = .ok (res p q)) :
    execAlu o op ra rb s = .next t ↔
      (∃ (j k : Fin 8) (p q : Byte), ra.toNat = j.val ∧ rb.toNat = k.val ∧ s.regs[j] = ⟨p, true⟩ ∧
        s.regs[k] = ⟨q, true⟩ ∧ t = advance o.byte (aluCommit s j (res p q))) ∨
      ∃ e, RaisesRead2 ra rb s e ∧ t = takeFault s e := by
  unfold execAlu
  rw [settle_next]
  simp only [bind_eq_ok, bind_eq_error, regFields_eq_ok, regFields_eq_error, readReg_eq_ok, readReg_eq_error, hop,
    except_pure, Except.ok.injEq, exists_eq_left', reduceCtorEq, and_false, exists_false, or_false]
  constructor
  · rintro (⟨⟨j, k⟩, ⟨hj, hk⟩, p, hp, q, hq, rfl⟩ | ⟨e, (h | ⟨⟨j, k⟩, ⟨hj, hk⟩, h⟩), rfl⟩)
    · exact .inl ⟨j, k, p, q, hj, hk, hp, hq, rfl⟩
    · exact .inr ⟨e, h.elim .inl fun h => .inr (.inl h), rfl⟩
    · refine .inr ⟨e, .inr (.inr ⟨j, k, hj, hk, ?_⟩), rfl⟩
      rcases h with h | ⟨p, hp, h⟩
      · exact .inl h
      · exact .inr ⟨by rw [hp], h⟩
  · rintro (⟨j, k, p, q, hj, hk, hp, hq, rfl⟩ | ⟨e, h, rfl⟩)
    · exact .inl ⟨(j, k), ⟨hj, hk⟩, p, hp, q, hq, rfl⟩
    · refine .inr ⟨e, ?_, rfl⟩
      rcases h with h | h | ⟨j, k, hj, hk, h⟩
      · exact .inl (.inl h)
      · exact .inl (.inr h)
      · refine .inr ⟨(j, k), ⟨hj, hk⟩, ?_⟩
        rcases h with h | ⟨hd, h⟩
        · exact .inl h
        · refine .inr ⟨s.regs[j].value, ?_, h⟩
          cases hc : s.regs[j] with
          | mk w d => rw [hc] at hd; simp_all

theorem pushChecks_eq_ok {r : Byte} {s : State} {p : Byte × Byte} :
    pushChecks r s = .ok p ↔ ∃ (k : Fin 8) (sp v : Byte), r.toNat = k.val ∧ s.regs[7] = ⟨sp, true⟩ ∧ sp.toNat ≠ 0 ∧
      ((k = 7 ∧ v = BitVec.ofNat 8 (sp.toNat - 1)) ∨ (k ≠ 7 ∧ s.regs[k] = ⟨v, true⟩)) ∧
      p = (BitVec.ofNat 8 (sp.toNat - 1), v) := by
  simp only [pushChecks, bind_eq_ok, regField_eq_ok, pushPointer_eq_ok, readRegAfterPush_eq_ok, except_pure,
    Except.ok.injEq]
  constructor
  · rintro ⟨k, hk, sp', ⟨sp, hs, h0, rfl⟩, v, hv, rfl⟩; exact ⟨k, sp, v, hk, hs, h0, hv, rfl⟩
  · rintro ⟨k, sp, v, hk, hs, h0, hv, rfl⟩; exact ⟨k, hk, _, ⟨sp, hs, h0, rfl⟩, v, hv, rfl⟩

theorem raisesPush_iff {k : Fin 8} {s : State} {e : Raise} :
    (pushPointer s = .error e ∨ ∃ sp', pushPointer s = .ok sp' ∧ readRegAfterPush s k sp' = .error e) ↔
      RaisesPush k s e := by
  simp only [pushPointer_eq_ok, pushPointer_eq_error, readRegAfterPush_eq_error, RaisesPush]
  constructor
  · rintro ((h | h) | ⟨sp', ⟨sp, hs, h0, rfl⟩, h⟩)
    · exact .inl h
    · exact .inr (.inl h)
    · exact .inr (.inr ⟨sp, hs, h0, h⟩)
  · rintro (h | h | ⟨sp, hs, h0, h⟩)
    · exact .inl (.inl h)
    · exact .inl (.inr h)
    · exact .inr ⟨_, ⟨sp, hs, h0, rfl⟩, h⟩

theorem pushChecks_eq_error {r : Byte} {s : State} {e : Raise} :
    pushChecks r s = .error e ↔
      (8 ≤ r.toNat ∧ e = raiseRegisterIndex r) ∨ ∃ k : Fin 8, r.toNat = k.val ∧ RaisesPush k s e := by
  simp only [pushChecks, bind_eq_error, regField_eq_ok, regField_eq_error, except_pure, reduceCtorEq, and_false,
    exists_false, or_false, raisesPush_iff]

theorem callChecks_eq_ok {r : Byte} {s : State} {p : Byte × Byte × Byte} :
    callChecks r s = .ok p ↔ ∃ (k : Fin 8) (sp v : Byte), r.toNat = k.val ∧ s.pc ≤ 253 ∧ s.regs[7] = ⟨sp, true⟩ ∧ sp.toNat ≠ 0 ∧
      ((k = 7 ∧ v = BitVec.ofNat 8 (sp.toNat - 1)) ∨ (k ≠ 7 ∧ s.regs[k] = ⟨v, true⟩)) ∧
      p = (BitVec.ofNat 8 (s.pc + 2), BitVec.ofNat 8 (sp.toNat - 1), v) := by
  simp only [callChecks, bind_eq_ok, regField_eq_ok, returnAddress_eq_ok, pushPointer_eq_ok, readRegAfterPush_eq_ok,
    except_pure, Except.ok.injEq]
  constructor
  · rintro ⟨k, hk, ret, ⟨hpc, rfl⟩, sp', ⟨sp, hs, h0, rfl⟩, v, hv, rfl⟩; exact ⟨k, sp, v, hk, hpc, hs, h0, hv, rfl⟩
  · rintro ⟨k, sp, v, hk, hpc, hs, h0, hv, rfl⟩; exact ⟨k, hk, _, ⟨hpc, rfl⟩, _, ⟨sp, hs, h0, rfl⟩, v, hv, rfl⟩

theorem callChecks_eq_error {r : Byte} {s : State} {e : Raise} :
    callChecks r s = .error e ↔
      (8 ≤ r.toNat ∧ e = raiseRegisterIndex r) ∨
      ∃ k : Fin 8, r.toNat = k.val ∧
        ((254 ≤ s.pc ∧ e = raiseReturnAddress (s.pc + 2)) ∨ (s.pc ≤ 253 ∧ RaisesPush k s e)) := by
  simp only [callChecks, bind_eq_error, regField_eq_ok, regField_eq_error, returnAddress_eq_ok, returnAddress_eq_error,
    except_pure, reduceCtorEq, and_false, exists_false, or_false, raisesPush_iff]
  constructor
  · rintro (h | ⟨k, hk, h | ⟨ret, ⟨hpc, rfl⟩, h⟩⟩)
    · exact .inl h
    · exact .inr ⟨k, hk, .inl h⟩
    · exact .inr ⟨k, hk, .inr ⟨hpc, h⟩⟩
  · rintro (h | ⟨k, hk, h | ⟨hpc, h⟩⟩)
    · exact .inl h
    · exact .inr ⟨k, hk, .inl h⟩
    · exact .inr ⟨k, hk, .inr ⟨_, ⟨hpc, rfl⟩, h⟩⟩

theorem raisesPop_iff {base : Byte → Byte → Byte} {s : State} {e : Raise} :
    (readReg s 7 = .error e ∨ ∃ sp, readReg s 7 = .ok sp ∧
      (memRead s sp = .error e ∨ ∃ v, memRead s sp = .ok v ∧ popPointer (base sp v) = .error e)) ↔
      RaisesPop base s e := by
  simp only [readReg_eq_ok, readReg_eq_error, memRead_eq_ok, memRead_eq_error, popPointer_eq_error, RaisesPop]
  rfl

/-! ## Every instruction -/

/-- An instruction answers a next state exactly where it commits one or takes one of its faults, whatever its operand
bytes and the state. -/
theorem exec_next (i : Instr) (s t : State) :
    exec i s = .next t ↔ Commits i s t ∨ ∃ e, Raises i s e ∧ t = takeFault s e := by
  cases i with
  | hlt => simp [exec, execHlt, advance_opcode, halt, setPc, Commits, Raises, eq_comm]
  | ldi r v =>
    simp only [exec, execLdi, settle_next, bind_eq_ok, bind_eq_error, regField_eq_ok, regField_eq_error, except_pure,
      Except.ok.injEq, reduceCtorEq, and_false, exists_false, or_false, Commits, Raises, advance_opcode, immField,
      eq_comm (b := t)]
    rfl
  | prn r =>
    simp only [exec, execPrn, settle_next, read_eq_ok (f := fun v => advance Opcode.prn.byte (emit s v)), read_eq_error]
    simp only [Commits, Raises, advance_opcode]
    rfl
  | mul ra rb =>
    rw [exec, execMul, execAlu_next _ (fun _ _ => rfl)]
    simp only [Commits, Raises, advance_opcode, aluCommit]
    rfl
  | add ra rb =>
    rw [exec, execAdd, execAlu_next _ (fun _ _ => rfl)]
    simp only [Commits, Raises, advance_opcode, aluCommit]
    rfl
  | cmp ra rb =>
    rw [exec, execCmp, execAlu_next _ (fun _ _ => rfl)]
    simp only [Commits, Raises, advance_opcode, aluCommit]
    rfl
  | push r =>
    simp only [exec, execPush, settle_next, bind_eq_ok, bind_eq_error, pushChecks_eq_ok, pushChecks_eq_error, except_pure,
      Except.ok.injEq, reduceCtorEq, and_false, exists_false, or_false, Commits, Raises, advance_opcode]
    refine or_congr ?_ Iff.rfl
    constructor
    · rintro ⟨_, ⟨k, sp, v, hk, hs, h0, hv, rfl⟩, rfl⟩
      refine ⟨k, sp, v, hk, hs, h0, hv, ?_⟩
      simp only [pushCommit, memWrite, writeReg, setPc, sub_one_toNat]; rfl
    · rintro ⟨k, sp, v, hk, hs, h0, hv, rfl⟩
      refine ⟨_, ⟨k, sp, v, hk, hs, h0, hv, rfl⟩, ?_⟩
      simp only [pushCommit, memWrite, writeReg, setPc, sub_one_toNat]; rfl
  | call r =>
    simp only [exec, execCall, settle_next, bind_eq_ok, bind_eq_error, callChecks_eq_ok, callChecks_eq_error, except_pure,
      Except.ok.injEq, reduceCtorEq, and_false, exists_false, or_false, Commits, Raises, advance_opcode]
    refine or_congr ?_ Iff.rfl
    constructor
    · rintro ⟨_, ⟨k, sp, v, hk, hpc, hs, h0, hv, rfl⟩, rfl⟩
      refine ⟨k, sp, v, hk, hpc, hs, h0, hv, ?_⟩
      simp only [pushCommit, memWrite, writeReg, setPc, sub_one_toNat]; rfl
    · rintro ⟨k, sp, v, hk, hpc, hs, h0, hv, rfl⟩
      refine ⟨_, ⟨k, sp, v, hk, hpc, hs, h0, hv, rfl⟩, ?_⟩
      simp only [pushCommit, memWrite, writeReg, setPc, sub_one_toNat]; rfl
  | pop r =>
    simp only [exec, execPop, settle_next, bind_eq_ok, bind_eq_error, regField_eq_ok, regField_eq_error, except_pure,
      Except.ok.injEq, reduceCtorEq, and_false, exists_false, or_false, Commits, Raises, advance_opcode, Config.spIndex]
    refine or_congr ?_ ?_
    · simp only [readReg_eq_ok, memRead_eq_ok, popPointer_eq_ok]
      constructor
      · rintro ⟨k, hk, sp, hs, v, hv, _, ⟨hb, rfl⟩, rfl⟩
        refine ⟨k, sp, v, hk, hs, hv, ?_⟩
        by_cases h7 : k = 7
        · simp only [if_pos h7] at hb ⊢; exact .inl ⟨h7, by omega, rfl⟩
        · simp only [if_neg h7] at hb ⊢; exact .inr ⟨h7, by omega, rfl⟩
      · rintro ⟨k, sp, v, hk, hs, hv, ⟨h7, hb, rfl⟩ | ⟨h7, hb, rfl⟩⟩
        · exact ⟨k, hk, sp, hs, v, hv, _, ⟨by rw [if_pos h7]; omega, rfl⟩, by simp only [if_pos h7]; rfl⟩
        · exact ⟨k, hk, sp, hs, v, hv, _, ⟨by rw [if_neg h7]; omega, rfl⟩, by simp only [if_neg h7]; rfl⟩
    · refine exists_congr fun e => and_congr (or_congr Iff.rfl (exists_congr fun k => and_congr Iff.rfl ?_)) Iff.rfl
      exact raisesPop_iff (base := fun sp v => if k = 7 then v else sp)
  | ret =>
    simp only [exec, execRet, settle_next, bind_eq_ok, bind_eq_error, except_pure,
      Except.ok.injEq, reduceCtorEq, and_false, exists_false, or_false, Commits, Raises, advance_opcode, Config.spIndex]
    refine or_congr ?_ (exists_congr fun e => and_congr (raisesPop_iff (base := fun sp _ => sp)) Iff.rfl)
    simp only [readReg_eq_ok, memRead_eq_ok, popPointer_eq_ok]
    constructor
    · rintro ⟨sp, hs, v, hv, _, ⟨hb, rfl⟩, rfl⟩; exact ⟨sp, v, hs, hv, by omega, rfl⟩
    · rintro ⟨sp, v, hs, hv, hb, rfl⟩; exact ⟨sp, hs, v, hv, _, ⟨by omega, rfl⟩, rfl⟩
  | jmp r =>
    simp only [exec, execJmp, settle_next, read_eq_ok (f := fun v => advance Opcode.jmp.byte (setPc s v.toNat)),
      read_eq_error]
    simp only [Commits, Raises, advance_opcode]
    rfl
  | jeq r =>
    simp only [exec, execJeq, settle_next,
      read_eq_ok (f := fun v => advance Opcode.jeq.byte (setPc s (if isEqual s.fl then v.toNat else s.pc + 2))),
      read_eq_error]
    simp only [Commits, Raises, advance_opcode]
    rfl
  | jne r =>
    simp only [exec, execJne, settle_next,
      read_eq_ok (f := fun v => advance Opcode.jne.byte (setPc s (if isEqual s.fl then s.pc + 2 else v.toNat))),
      read_eq_error]
    simp only [Commits, Raises, advance_opcode]
    rfl

/-! ## What a committed state holds, field by field -/

/-- An instruction that commits answers that state. -/
theorem exec_of_commits {i : Instr} {s t : State} (h : Commits i s t) : exec i s = .next t :=
  (exec_next i s t).mpr (.inl h)

/-- An instruction that raises takes that fault. -/
theorem exec_of_raises {i : Instr} {s : State} {e : Raise} (h : Raises i s e) : exec i s = .next (takeFault s e) :=
  (exec_next i s _).mpr (.inr ⟨e, h, rfl⟩)

/-- Only HLT commits a status (10_state.md R29). -/
theorem Commits.status {i : Instr} {s t : State} (h : Commits i s t) :
    t.status = if i = .hlt then .halted else s.status := by
  cases i <;> simp only [Commits] at h
  case hlt => subst h; rfl
  case ldi => obtain ⟨_, _, rfl⟩ := h; rfl
  case push => obtain ⟨_, _, _, _, _, _, _, rfl⟩ := h; rfl
  case call => obtain ⟨_, _, _, _, _, _, _, _, rfl⟩ := h; rfl
  case pop => obtain ⟨_, _, _, _, _, _, ⟨_, _, rfl⟩ | ⟨_, _, rfl⟩⟩ := h <;> rfl
  case ret => obtain ⟨_, _, _, _, _, rfl⟩ := h; rfl
  case add | mul | cmp => obtain ⟨_, _, _, _, _, _, _, _, rfl⟩ := h; rfl
  case prn | jmp | jeq | jne => obtain ⟨_, _, _, _, rfl⟩ := h; rfl

/-- Only CMP commits FL (10_state.md R26). -/
theorem Commits.fl {i : Instr} {s t : State} (h : Commits i s t) (hi : i.opcode ≠ .cmp) : t.fl = s.fl := by
  cases i <;> simp only [Commits] at h
  case hlt => subst h; rfl
  case ldi => obtain ⟨_, _, rfl⟩ := h; rfl
  case push => obtain ⟨_, _, _, _, _, _, _, rfl⟩ := h; rfl
  case call => obtain ⟨_, _, _, _, _, _, _, _, rfl⟩ := h; rfl
  case pop => obtain ⟨_, _, _, _, _, _, ⟨_, _, rfl⟩ | ⟨_, _, rfl⟩⟩ := h <;> rfl
  case ret => obtain ⟨_, _, _, _, _, rfl⟩ := h; rfl
  case add | mul => obtain ⟨_, _, _, _, _, _, _, _, rfl⟩ := h; rfl
  case prn | jmp | jeq | jne => obtain ⟨_, _, _, _, rfl⟩ := h; rfl
  case cmp => exact absurd rfl hi

/-- Only PRN commits output (10_state.md R32). -/
theorem Commits.out {i : Instr} {s t : State} (h : Commits i s t) (hi : i.opcode ≠ .prn) : t.out = s.out := by
  cases i <;> simp only [Commits] at h
  case hlt => subst h; rfl
  case ldi => obtain ⟨_, _, rfl⟩ := h; rfl
  case push => obtain ⟨_, _, _, _, _, _, _, rfl⟩ := h; rfl
  case call => obtain ⟨_, _, _, _, _, _, _, _, rfl⟩ := h; rfl
  case pop => obtain ⟨_, _, _, _, _, _, ⟨_, _, rfl⟩ | ⟨_, _, rfl⟩⟩ := h <;> rfl
  case ret => obtain ⟨_, _, _, _, _, rfl⟩ := h; rfl
  case add | mul | cmp => obtain ⟨_, _, _, _, _, _, _, _, rfl⟩ := h; rfl
  case jmp | jeq | jne => obtain ⟨_, _, _, _, rfl⟩ := h; rfl
  case prn => exact absurd rfl hi

/-- Only PUSH and CALL commit memory, one byte at SP - 1 (20_memory.md R43). -/
theorem Commits.mem {i : Instr} {s t : State} (h : Commits i s t) :
    t.mem = s.mem ∨
      (i.opcode = .push ∨ i.opcode = .call) ∧
        ∃ (sp v : Byte), s.regs[7] = ⟨sp, true⟩ ∧ sp.toNat ≠ 0 ∧ t.mem = Memory.set s.mem (sp.toNat - 1) v := by
  cases i <;> simp only [Commits] at h
  case hlt => subst h; exact .inl rfl
  case ldi => obtain ⟨_, _, rfl⟩ := h; exact .inl rfl
  case push => obtain ⟨_, sp, v, _, hs, h0, _, rfl⟩ := h; exact .inr ⟨.inl rfl, sp, v, hs, h0, rfl⟩
  case call => obtain ⟨_, sp, _, _, _, hs, h0, _, rfl⟩ := h; exact .inr ⟨.inr rfl, sp, _, hs, h0, rfl⟩
  case pop => obtain ⟨_, _, _, _, _, _, ⟨_, _, rfl⟩ | ⟨_, _, rfl⟩⟩ := h <;> exact .inl rfl
  case ret => obtain ⟨_, _, _, _, _, rfl⟩ := h; exact .inl rfl
  case add | mul | cmp => obtain ⟨_, _, _, _, _, _, _, _, rfl⟩ := h; exact .inl rfl
  case prn | jmp | jeq | jne => obtain ⟨_, _, _, _, rfl⟩ := h; exact .inl rfl

/-- A register changes by a commit only as the destination of LDI, ADD, MUL or POP, or as R7 by PUSH, POP, CALL or RET
(10_state.md R21). -/
theorem Commits.regs {i : Instr} {s t : State} (h : Commits i s t) (j : Fin 8)
    (hd : i.opcode = .ldi ∨ i.opcode = .add ∨ i.opcode = .mul ∨ i.opcode = .pop → (i.operands.getD 0 0).toNat ≠ j.val)
    (h7 : i.opcode = .push ∨ i.opcode = .pop ∨ i.opcode = .call ∨ i.opcode = .ret → j ≠ 7) :
    t.regs[j] = s.regs[j] := by
  have set_other : ∀ (r : Vector RegCell 8) (k : Fin 8) (c : RegCell), k.val ≠ j.val → (r.set k.val c)[j] = r[j] :=
    fun r k c hk => Vector.getElem_set_ne _ _ hk
  have set_seven : ∀ (r : Vector RegCell 8) (c : RegCell), j ≠ 7 → (r.set 7 c)[j] = r[j] :=
    fun r c hj => set_other r 7 c fun e => hj (Fin.ext e.symm)
  cases i <;> simp only [Commits] at h
  case hlt => subst h; rfl
  case ldi => obtain ⟨k, hk, rfl⟩ := h; exact set_other _ k _ (hk ▸ hd (by simp [Instr.opcode]))
  case push => obtain ⟨_, _, _, _, _, _, _, rfl⟩ := h; exact set_seven _ _ (h7 (by simp [Instr.opcode]))
  case call => obtain ⟨_, _, _, _, _, _, _, _, rfl⟩ := h; exact set_seven _ _ (h7 (by simp [Instr.opcode]))
  case ret => obtain ⟨_, _, _, _, _, rfl⟩ := h; exact set_seven _ _ (h7 (by simp [Instr.opcode]))
  case pop =>
    have h7 := h7 (by simp [Instr.opcode])
    obtain ⟨k, _, _, hk, _, _, ⟨_, _, rfl⟩ | ⟨_, _, rfl⟩⟩ := h
    · exact set_seven _ _ h7
    · exact (set_seven _ _ h7).trans (set_other _ k _ (hk ▸ hd (by simp [Instr.opcode])))
  case add | mul =>
    obtain ⟨k, _, _, _, hk, _, _, _, rfl⟩ := h
    exact set_other _ k _ (hk ▸ hd (by simp [Instr.opcode]))
  case cmp => obtain ⟨_, _, _, _, _, _, _, _, rfl⟩ := h; rfl
  case prn | jmp | jeq | jne => obtain ⟨_, _, _, _, rfl⟩ := h; rfl

/-! ## What an instruction can raise -/

/-- Every fault an instruction raises is one of these, for the reason given (60_exceptions.md R151). -/
theorem Raises.cause {i : Instr} {s : State} {e : Raise} (h : Raises i s e) :
    (∃ r : Byte, 8 ≤ r.toNat ∧ e = raiseRegisterIndex r) ∨
    (∃ k : Fin 8, s.regs[k].defined = false ∧ e = raiseUninitRegister k) ∨
    (∃ b : Byte, Memory.get s.mem b.toNat = none ∧ e = raiseUninitMemory b) ∨
    e = raiseStackPointer (-1) ∨ e = raiseStackPointer 256 ∨
    (i.opcode = .call ∧ 254 ≤ s.pc ∧ e = raiseReturnAddress (s.pc + 2)) := by
  have read : ∀ r, RaisesRead r s e →
      (∃ r : Byte, 8 ≤ r.toNat ∧ e = raiseRegisterIndex r) ∨
      (∃ k : Fin 8, s.regs[k].defined = false ∧ e = raiseUninitRegister k) := by
    rintro r (h | ⟨k, _, h⟩)
    · exact .inl ⟨r, h⟩
    · exact .inr ⟨k, h⟩
  have read2 : ∀ ra rb, RaisesRead2 ra rb s e →
      (∃ r : Byte, 8 ≤ r.toNat ∧ e = raiseRegisterIndex r) ∨
      (∃ k : Fin 8, s.regs[k].defined = false ∧ e = raiseUninitRegister k) := by
    rintro ra rb (h | ⟨_, h⟩ | ⟨j, k, _, _, h | ⟨_, h⟩⟩)
    · exact .inl ⟨ra, h⟩
    · exact .inl ⟨rb, h⟩
    · exact .inr ⟨j, h⟩
    · exact .inr ⟨k, h⟩
  have push : ∀ k, RaisesPush k s e →
      (∃ k : Fin 8, s.regs[k].defined = false ∧ e = raiseUninitRegister k) ∨ e = raiseStackPointer (-1) := by
    rintro k (h | ⟨_, h⟩ | ⟨_, _, _, _, h⟩)
    · exact .inl ⟨7, h⟩
    · exact .inr h
    · exact .inl ⟨k, h⟩
  have pop : ∀ b, RaisesPop b s e →
      (∃ k : Fin 8, s.regs[k].defined = false ∧ e = raiseUninitRegister k) ∨
      (∃ b : Byte, Memory.get s.mem b.toNat = none ∧ e = raiseUninitMemory b) ∨ e = raiseStackPointer 256 := by
    rintro b (h | ⟨sp, _, h | ⟨_, _, _, h⟩⟩)
    · exact .inl ⟨7, h⟩
    · exact .inr (.inl ⟨sp, h⟩)
    · exact .inr (.inr h)
  cases i <;> simp only [Raises] at h
  case ldi r _ => exact .inl ⟨r, h⟩
  case prn | jmp | jeq | jne => exact (read _ h).imp_right .inl
  case add | mul | cmp => exact (read2 _ _ h).imp_right .inl
  case push =>
    rcases h with h | ⟨k, _, h⟩
    · exact .inl ⟨_, h⟩
    · exact .inr ((push k h).imp_right fun h => .inr (.inl h))
  case call =>
    rcases h with h | ⟨k, _, h | ⟨_, h⟩⟩
    · exact .inl ⟨_, h⟩
    · exact .inr (.inr (.inr (.inr (.inr ⟨rfl, h⟩))))
    · exact .inr ((push k h).imp_right fun h => .inr (.inl h))
  case pop =>
    rcases h with h | ⟨k, _, h⟩
    · exact .inl ⟨_, h⟩
    · exact .inr ((pop _ h).imp_right (Or.imp_right fun h => .inr (.inl h)))
  case ret => exact .inr ((pop _ h).imp_right (Or.imp_right fun h => .inr (.inl h)))

end Sys2Proof.Machine
end

