-- ==== Sys2Proof/Laws/Step.lean ====
section
/-! SUPPORT. What fetch, decode and a step can do, said once: an instruction is fetched exactly where its encoding stands at
pc, a fetch raises exactly the faults of 60_exceptions.md R153 items 1 to 5, and a step is one of the two. -/

namespace Sys2Proof.Machine

/-- An opcode byte is fetched exactly where pc is an address and the byte there is defined (40_execution_cycle.md R81). -/
theorem fetchOpcode_eq_ok {s : State} {ir : Byte} :
    fetchOpcode s = .ok ir ↔ s.pc ≤ 255 ∧ Memory.get s.mem s.pc = some ir := by
  unfold fetchOpcode
  split
  · next h => simp; omega
  · next h =>
    have e : (BitVec.ofNat 8 s.pc).toNat = s.pc := by simp only [BitVec.toNat_ofNat]; omega
    rw [memRead_eq_ok, e]
    exact ⟨fun h' => ⟨by omega, h'⟩, fun h' => h'.2⟩

theorem fetchOpcode_eq_error {s : State} {r : Raise} :
    fetchOpcode s = .error r ↔
      (255 < s.pc ∧ r = raiseFetchAddress s.pc) ∨
      (s.pc ≤ 255 ∧ Memory.get s.mem s.pc = none ∧ r = ⟨.uninitializedRead .memory, (s.pc : Int)⟩) := by
  unfold fetchOpcode
  split
  · next h =>
    rw [Except.error.injEq, eq_comm]
    exact ⟨fun e => .inl ⟨h, e⟩, fun e => e.elim (fun e => e.2) fun e => absurd e.1 (by omega)⟩
  · next h =>
    have e : (BitVec.ofNat 8 s.pc).toNat = s.pc := by simp only [BitVec.toNat_ofNat]; omega
    rw [memRead_eq_error, raiseUninitMemory, e]
    constructor
    · intro h'; exact .inr ⟨by omega, h'⟩
    · rintro (h' | h')
      · exact absurd h'.1 (by omega)
      · exact h'.2

/-- An operand byte is fetched exactly where its address is in range and the byte is defined (40_execution_cycle.md R83). -/
theorem fetchOperand_eq_ok {s : State} {k : Nat} {v : Byte} :
    fetchOperand s k = .ok v ↔ s.pc + k ≤ 255 ∧ Memory.get s.mem (s.pc + k) = some v := by
  unfold fetchOperand
  split
  · next h => simp; omega
  · next h =>
    have e : (BitVec.ofNat 8 (s.pc + k)).toNat = s.pc + k := by simp only [BitVec.toNat_ofNat]; omega
    rw [memRead_eq_ok, e]
    exact ⟨fun h' => ⟨by omega, h'⟩, fun h' => h'.2⟩

theorem fetchOperand_eq_error {s : State} {k : Nat} {r : Raise} :
    fetchOperand s k = .error r ↔
      (255 < s.pc + k ∧ r = raiseOperandAddress (s.pc + k)) ∨
      (s.pc + k ≤ 255 ∧ Memory.get s.mem (s.pc + k) = none ∧
        r = ⟨.uninitializedRead .memory, ((s.pc + k : Nat) : Int)⟩) := by
  unfold fetchOperand
  split
  · next h =>
    rw [Except.error.injEq, eq_comm]
    exact ⟨fun e => .inl ⟨h, e⟩, fun e => e.elim (fun e => e.2) fun e => absurd e.1 (by omega)⟩
  · next h =>
    have e : (BitVec.ofNat 8 (s.pc + k)).toNat = s.pc + k := by simp only [BitVec.toNat_ofNat]; omega
    rw [memRead_eq_error, raiseUninitMemory, e]
    constructor
    · intro h'; exact .inr ⟨by omega, h'⟩
    · rintro (h' | h')
      · exact absurd h'.1 (by omega)
      · exact h'.2

/-- Where the bytes of a list stand at pc, byte by byte. -/
theorem bytesAtPc_cons {s : State} {b : Byte} {bs : List Byte} :
    s.bytesAtPc (b :: bs) ↔ (s.pc ≤ 255 ∧ Memory.get s.mem s.pc = some b) ∧
      ∀ k (h : k < bs.length), s.pc + (k + 1) ≤ 255 ∧ Memory.get s.mem (s.pc + (k + 1)) = some bs[k] := by
  constructor
  · intro h
    refine ⟨h 0 (by simp), fun k hk => ?_⟩
    exact h (k + 1) (by simpa using hk)
  · rintro ⟨h0, h1⟩ k hk
    cases k with
    | zero => exact h0
    | succ k => exact h1 k (by simpa using hk)

theorem bytesAtPc_one {s : State} {a : Byte} :
    s.bytesAtPc [a] ↔ s.pc ≤ 255 ∧ Memory.get s.mem s.pc = some a := by
  rw [bytesAtPc_cons]; simp

theorem bytesAtPc_two {s : State} {a b : Byte} :
    s.bytesAtPc [a, b] ↔ (s.pc ≤ 255 ∧ Memory.get s.mem s.pc = some a) ∧
      s.pc + 1 ≤ 255 ∧ Memory.get s.mem (s.pc + 1) = some b := by
  rw [bytesAtPc_cons]
  refine and_congr Iff.rfl ⟨fun h => h 0 (by simp), fun h k hk => ?_⟩
  obtain rfl : k = 0 := by simpa using hk
  exact h

theorem bytesAtPc_three {s : State} {a b c : Byte} :
    s.bytesAtPc [a, b, c] ↔ (s.pc ≤ 255 ∧ Memory.get s.mem s.pc = some a) ∧
      (s.pc + 1 ≤ 255 ∧ Memory.get s.mem (s.pc + 1) = some b) ∧
      s.pc + 2 ≤ 255 ∧ Memory.get s.mem (s.pc + 2) = some c := by
  rw [bytesAtPc_cons]
  refine and_congr Iff.rfl ⟨fun h => ⟨h 0 (by simp), h 1 (by simp)⟩, fun h k hk => ?_⟩
  have : k = 0 ∨ k = 1 := by simp at hk; omega
  rcases this with rfl | rfl
  · exact h.1
  · exact h.2

/-- The byte at pc + k of a state whose bytes are known. -/
theorem fetchByte_of_get {s : State} {k : Nat} {b : Byte} (h : Memory.get s.mem (s.pc + k) = some b) :
    s.fetchByte k = b := by
  simp [State.fetchByte, h]

/-- Fetch and decode, opened along the opcode byte: what is latched and checked for each opcode. -/
theorem fetchDecode_opcode {s : State} {o : Opcode} (h : fetchOpcode s = .ok o.byte) :
    fetchDecode s = (do
      let op1 ← latchOperand s o.byte 1
      let op2 ← latchOperand s o.byte 2
      match o.badField op1 op2 with
      | some v => .error (raiseRegisterIndex v)
      | none => .ok (o.assemble op1 op2)) := by
  simp only [fetchDecode, h, ok_bind, lookup_byte, decodeFetched, decodeInstr]
  congr 1; funext a; congr 1; funext b
  cases o.badField a b <;> rfl

/-- An instruction is fetched and decoded exactly where it is well-formed and its encoding stands at pc
(40_execution_cycle.md R81 to R84). -/
theorem fetchDecode_eq_ok {s : State} {i : Instr} :
    fetchDecode s = .ok i ↔ i.WellFormed ∧ s.bytesAtPc (encode i) := by
  constructor
  · intro h
    have h0 := h
    rw [fetchDecode, bind_eq_ok] at h0
    obtain ⟨ir, hir, h1⟩ := h0
    split at h1
    · exact absurd h1 (by simp)
    · next o ho =>
      obtain rfl := lookup_eq_some.mp ho
      rw [fetchDecode_opcode hir, bind_eq_ok] at h
      obtain ⟨a, ha, h⟩ := h
      rw [bind_eq_ok] at h
      obtain ⟨b, hb, h⟩ := h
      split at h
      · exact absurd h (by simp)
      · next hbad =>
        obtain rfl : o.assemble a b = i := by simpa using h
        refine ⟨badField_eq_none.mp hbad, ?_⟩
        have hir := fetchOpcode_eq_ok.mp hir
        cases o <;>
          simp only [encode, Opcode.assemble, Instr.operands, bytesAtPc_one, bytesAtPc_two,
            bytesAtPc_three, latchOperand, operandCount_byte, Opcode.format] at ha hb ⊢ <;>
          simp only [Nat.not_ofNat_le_one, Nat.reduceLeDiff, if_true, if_false, le_refl, fetchOperand_eq_ok] at ha hb ⊢
        all_goals first | exact hir | exact ⟨hir, ha⟩ | exact ⟨hir, ha, hb⟩
  · rintro ⟨hw, hb⟩
    have hir : fetchOpcode s = .ok i.opcode.byte := fetchOpcode_eq_ok.mpr (bytesAtPc_cons.mp hb).1
    rw [fetchDecode_opcode hir]
    cases i <;>
      simp only [encode, Instr.opcode, Instr.operands, bytesAtPc_one, bytesAtPc_two, bytesAtPc_three] at hb <;>
      simp only [Instr.opcode, latchOperand, operandCount_byte, Opcode.format, Nat.not_ofNat_le_one, Nat.reduceLeDiff,
        if_true, if_false, le_refl, ok_bind]
    all_goals
      first
      | rw [fetchOperand_eq_ok.mpr hb.2, ok_bind]
      | rw [fetchOperand_eq_ok.mpr hb.2.1, ok_bind, fetchOperand_eq_ok.mpr hb.2.2, ok_bind]
      | skip
    all_goals rw [badField_eq_none.mpr (by simpa only [Opcode.assemble] using hw)]; rfl

/-- What a fetch can raise (60_exceptions.md R153 items 1 to 5): the kind and the info of each. -/
theorem fetchDecode_error {s : State} {r : Raise} (h : fetchDecode s = .error r) :
    (255 < s.pc ∧ r = raiseFetchAddress s.pc) ∨
    (∃ k, s.pc + k ≤ 255 ∧ Memory.get s.mem (s.pc + k) = none ∧
      r = ⟨.uninitializedRead .memory, ((s.pc + k : Nat) : Int)⟩) ∨
    (∃ ir, s.pc ≤ 255 ∧ Memory.get s.mem s.pc = some ir ∧ lookup ir = none ∧ r = raiseUnknownOpcode ir) ∨
    (∃ k, (k = 1 ∨ k = 2) ∧ s.pc ≤ 255 ∧ 255 < s.pc + k ∧ r = raiseOperandAddress (s.pc + k)) ∨
    (∃ v : Byte, 8 ≤ v.toNat ∧ r = raiseRegisterIndex v) := by
  have hlatch : ∀ (ir : Byte) k r, latchOperand s ir k = .error r → fetchOperand s k = .error r := by
    intro ir k r h
    unfold latchOperand at h
    split at h
    · exact h
    · exact absurd h (by simp)
  have h0 := h
  rw [fetchDecode, bind_eq_error] at h0
  rcases h0 with h0 | ⟨ir, hir, h1⟩
  · rcases fetchOpcode_eq_error.mp h0 with h0 | h0
    · exact .inl h0
    · exact .inr (.inl ⟨0, h0⟩)
  · have hpc := fetchOpcode_eq_ok.mp hir
    split at h1
    · next hl => exact .inr (.inr (.inl ⟨ir, hpc.1, hpc.2, hl, by simpa [eq_comm] using h1⟩))
    · next o ho =>
      obtain rfl := lookup_eq_some.mp ho
      have hop : ∀ k, k = 1 ∨ k = 2 → fetchOperand s k = .error r →
          (∃ k, s.pc + k ≤ 255 ∧ Memory.get s.mem (s.pc + k) = none ∧
            r = ⟨.uninitializedRead .memory, ((s.pc + k : Nat) : Int)⟩) ∨
          (∃ k, (k = 1 ∨ k = 2) ∧ s.pc ≤ 255 ∧ 255 < s.pc + k ∧ r = raiseOperandAddress (s.pc + k)) := by
        intro k hk he
        rcases fetchOperand_eq_error.mp he with he | he
        · exact .inr ⟨k, hk, hpc.1, he⟩
        · exact .inl ⟨k, he⟩
      rw [fetchDecode_opcode hir, bind_eq_error] at h
      rcases h with h | ⟨a, _, h⟩
      · rcases hop 1 (.inl rfl) (hlatch _ _ _ h) with h | h
        · exact .inr (.inl h)
        · exact .inr (.inr (.inr (.inl h)))
      · rw [bind_eq_error] at h
        rcases h with h | ⟨b, _, h⟩
        · rcases hop 2 (.inr rfl) (hlatch _ _ _ h) with h | h
          · exact .inr (.inl h)
          · exact .inr (.inr (.inr (.inl h)))
        · split at h
          · next v hv =>
            refine .inr (.inr (.inr (.inr ⟨v, ?_, by simpa [eq_comm] using h⟩)))
            rw [badField_eq_some] at hv
            cases hf : o.format <;> simp only [hf] at hv
            · rw [hv.2]; omega
            · rcases hv with hv | hv
              · rw [hv.2]; omega
              · rw [hv.2.2]; omega
            · rw [hv.2]; omega
          · exact absurd h (by simp)

/-- A step answers a next state exactly from Running: that of the instruction whose encoding stands at pc, or the fault its
fetch raises (40_execution_cycle.md R80, R88). -/
theorem step_next {s t : State} :
    step s = .next t ↔ s.status = .running ∧
      ((∃ i : Instr, i.WellFormed ∧ s.bytesAtPc (encode i) ∧ exec i s = .next t) ∨
       ∃ r, fetchDecode s = .error r ∧ t = takeFault s r) := by
  unfold step
  cases hs : s.status with
  | halted => simp
  | faulted r => simp
  | running =>
    simp only [true_and]
    cases hf : fetchDecode s with
    | error r =>
      simp only [← and_assoc, ← fetchDecode_eq_ok, hf, reduceCtorEq, false_and, exists_false, false_or, settle_error,
        Except.error.injEq, exists_eq_left', Host.Outcome.next.injEq]
      exact eq_comm
    | ok i =>
      simp only [← and_assoc, ← fetchDecode_eq_ok, hf, Except.ok.injEq, exists_eq_left', reduceCtorEq, false_and,
        exists_false, or_false]

/-- From Running, a step whose fetch passes is the instruction's execution. -/
theorem step_of_fetchDecode_ok {s : State} {i : Instr} (hs : s.status = .running) (h : fetchDecode s = .ok i) :
    step s = exec i s := by
  unfold step; rw [hs, h]

/-- From Running, a step whose fetch raises takes that fault. -/
theorem step_of_fetchDecode_error {s : State} {r : Raise} (hs : s.status = .running) (h : fetchDecode s = .error r) :
    step s = .next (takeFault s r) := by
  unfold step; rw [hs, h]; rfl

/-- An instruction that is fetched ends inside the address space (20_memory.md R45). -/
theorem bytesAtPc_length {s : State} {i : Instr} (h : s.bytesAtPc (encode i)) : s.pc + (encode i).length ≤ 256 := by
  have hl : 0 < (encode i).length := by simp [encode]
  have := (h ((encode i).length - 1) (by omega)).1
  omega

/-- The opcode byte of an instruction that is fetched. -/
theorem fetchByte_zero {s : State} {i : Instr} (h : s.bytesAtPc (encode i)) : s.fetchByte 0 = i.opcode.byte :=
  fetchByte_of_get (bytesAtPc_cons.mp h).1.2

/-- The first operand byte of an instruction that is fetched. -/
theorem fetchByte_one {s : State} {i : Instr} {a : Byte} {l : List Byte} (h : s.bytesAtPc (encode i))
    (ho : i.operands = a :: l) : s.fetchByte 1 = a := by
  have := (h 1 (by simp [encode, ho])).2
  simp only [encode, ho, List.getElem_cons_succ, List.getElem_cons_zero] at this
  exact fetchByte_of_get this

/-- The second operand byte of an instruction that is fetched. -/
theorem fetchByte_two {s : State} {i : Instr} {a b : Byte} {l : List Byte} (h : s.bytesAtPc (encode i))
    (ho : i.operands = a :: b :: l) : s.fetchByte 2 = b := by
  have := (h 2 (by simp [encode, ho])).2
  simp only [encode, ho, List.getElem_cons_succ, List.getElem_cons_zero] at this
  exact fetchByte_of_get this

/-- What a step can do, said once: from Running it commits the instruction at pc, or takes a fault that changes nothing but
the status (40_execution_cycle.md R85, R87). -/
theorem step_cases {s t : State} (h : step s = .next t) :
    s.status = .running ∧
      ((∃ i : Instr, i.WellFormed ∧ s.bytesAtPc (encode i) ∧ Commits i s t ∧ t.isFaulted = false) ∨
       ∃ r, t = takeFault s r) := by
  obtain ⟨hr, ⟨i, hw, hb, he⟩ | ⟨r, -, rfl⟩⟩ := step_next.mp h
  · refine ⟨hr, ?_⟩
    rcases (exec_next i s t).mp he with hc | ⟨r, -, rfl⟩
    · refine .inl ⟨i, hw, hb, hc, ?_⟩
      have := hc.status
      unfold State.isFaulted
      split at this <;> rw [this]
      rw [hr]
    · exact .inr ⟨r, rfl⟩
  · exact ⟨hr, .inr ⟨r, rfl⟩⟩

end Sys2Proof.Machine
end

