-- ==== Sys2Proof/Laws/Checks.lean ====
section
/-! SUPPORT. The small laws of the check lists of Safety.lean (60_exceptions.md R153). -/

namespace Sys2Proof.Machine

@[simp] theorem firstFailing_nil : firstFailing [] = none := rfl

/-- A check that fails at the head is the first. -/
theorem firstFailing_of_fails {c : Check} {l : List Check} (h : c.fails = true) : firstFailing (c :: l) = some c := by
  rw [firstFailing, if_pos h]

/-- A check that passes at the head is skipped. -/
theorem firstFailing_of_passes {c : Check} {l : List Check} (h : c.fails = false) :
    firstFailing (c :: l) = firstFailing l := by
  rw [firstFailing, if_neg (by simp [h])]

/-- The first failing check of two lists is that of the first list, or else that of the second. -/
theorem firstFailing_append (l m : List Check) :
    firstFailing (l ++ m) = (firstFailing l).or (firstFailing m) := by
  induction l with
  | nil => rfl
  | cons c r ih =>
    cases h : c.fails
    · rw [List.cons_append, firstFailing_of_passes h, firstFailing_of_passes h, ih]
    · rw [List.cons_append, firstFailing_of_fails h, firstFailing_of_fails h]; rfl

/-- The register check, by the register that the operand byte names. -/
theorem definedCheck_eq {s : State} {b : Byte} {k : Fin 8} (h : b.toNat = k.val) :
    definedCheck s b = ⟨!s.regs[k].defined, .uninitializedRead .register, (k.val : Int)⟩ := by
  obtain rfl : k = Fin.ofNat 8 b.toNat := by ext; simp; omega
  simp only [definedCheck, ← h]

end Sys2Proof.Machine
end

