-- ==== Sys2Proof/Laws/PerInstr.lean ====
section
/-! SUPPORT. A statement for every instruction as syntax, one lemma for each constructor: the decoder's parts rebuild the
instruction from its opcode and operand bytes, and its field check is the well-formedness of WellFormed.lean. -/

namespace Sys2Proof.Laws.DecoderParts

/-- Assembling an instruction from its own opcode and operand bytes gives it back, and the field check of its opcode passes
exactly when the instruction is well-formed (30_encoding.md R61, R64). -/
def Statement (i : Instr) : Prop :=
  i.opcode.assemble (i.operands.getD 0 0) (i.operands.getD 1 0) = i ∧
  (i.opcode.badField (i.operands.getD 0 0) (i.operands.getD 1 0) = none ↔ i.WellFormed)

theorem of_assemble {i : Instr} (h : i.opcode.assemble (i.operands.getD 0 0) (i.operands.getD 1 0) = i) :
    Statement i := ⟨h, by rw [badField_eq_none, h]⟩

theorem hlt : Statement .hlt := of_assemble rfl
theorem ldi (r imm : Byte) : Statement (.ldi r imm) := of_assemble rfl
theorem prn (r : Byte) : Statement (.prn r) := of_assemble rfl
theorem mul (ra rb : Byte) : Statement (.mul ra rb) := of_assemble rfl
theorem add (ra rb : Byte) : Statement (.add ra rb) := of_assemble rfl
theorem push (r : Byte) : Statement (.push r) := of_assemble rfl
theorem pop (r : Byte) : Statement (.pop r) := of_assemble rfl
theorem call (r : Byte) : Statement (.call r) := of_assemble rfl
theorem ret : Statement .ret := of_assemble rfl
theorem cmp (ra rb : Byte) : Statement (.cmp ra rb) := of_assemble rfl
theorem jmp (r : Byte) : Statement (.jmp r) := of_assemble rfl
theorem jeq (r : Byte) : Statement (.jeq r) := of_assemble rfl
theorem jne (r : Byte) : Statement (.jne r) := of_assemble rfl

end Sys2Proof.Laws.DecoderParts
end

