-- ==== Sys2Proof/Tests/Slice0.lean ====
section
/-! SUPPORT. The model's own tests. Expected results are taken from the encodings of 30_encoding.md R61 and R62 and from the
vectors of 95_test_vectors.md (each named in its comment), and are never the model's own answers. After them, a witness for
each statement that has hypotheses: a concrete state and operands that meet all of them together. -/

namespace Sys2Proof.Tests

open Sys2Proof Sys2Proof.Machine

/-! ## Helpers -/

/-- The model's reset state with pc at `a` and bytes placed there. -/
def codeAt (a : Nat) (bytes : List Byte) : State := { State.reset with pc := a, mem := Memory.place [] a bytes }

/-- The same from the spec's reset, where R0..R6 are undefined. -/
def codeAtUndefined (a : Nat) (bytes : List Byte) : State :=
  { State.resetUndefined with pc := a, mem := Memory.place [] a bytes }

/-- The next state, where there is one. -/
def nextOf : Host.Outcome State Fault Refusal → Option State
  | .next t => some t
  | .fault _ => none
  | .refused _ => none

/-- The state after one step. -/
def after (s : State) : State := (nextOf (step s)).getD s

/-- The state after one instruction. -/
def afterExec (i : Instr) (s : State) : State := (nextOf (exec i s)).getD s

theorem eq_next {o : Host.Outcome State Fault Refusal} {s : State} (h : (nextOf o).isSome = true) :
    o = .next ((nextOf o).getD s) := by
  cases o with
  | next t => rfl
  | fault _ => cases h
  | refused _ => cases h

theorem step_after {s : State} (h : (nextOf (step s)).isSome = true) : step s = .next (after s) := eq_next h

theorem exec_after {i : Instr} {s : State} (h : (nextOf (exec i s)).isSome = true) :
    exec i s = .next (afterExec i s) := eq_next h

/-- The fault record of a state, as kind and info, where it is faulted. -/
def record (s : State) : Option (FaultKind × Int) :=
  match s.status with
  | .faulted r => some (r.kind, r.info)
  | .running => none
  | .halted => none

/-! ## Well-formedness: an ill-formed term for each check (30_encoding.md R64) -/

theorem test_wf_ldi : (Instr.ldi 8 0).wellFormed = false := by decide
theorem test_wf_prn : (Instr.prn 8).wellFormed = false := by decide
theorem test_wf_mul : (Instr.mul 8 0).wellFormed = false ∧ (Instr.mul 0 8).wellFormed = false := by decide
theorem test_wf_add : (Instr.add 255 0).wellFormed = false ∧ (Instr.add 7 255).wellFormed = false := by decide
theorem test_wf_push : (Instr.push 8).wellFormed = false := by decide
theorem test_wf_pop : (Instr.pop 16).wellFormed = false := by decide
theorem test_wf_call : (Instr.call 8).wellFormed = false := by decide
theorem test_wf_cmp : (Instr.cmp 8 7).wellFormed = false ∧ (Instr.cmp 7 8).wellFormed = false := by decide
theorem test_wf_jmp : (Instr.jmp 8).wellFormed = false := by decide
theorem test_wf_jeq : (Instr.jeq 128).wellFormed = false := by decide
theorem test_wf_jne : (Instr.jne 8).wellFormed = false := by decide

/-- The immediate of LDI is not checked (30_encoding.md R65). -/
theorem test_wf_immediate : (Instr.ldi 7 255).wellFormed = true := by decide

/-! ## Decoding: a word of every row of the table, bit by bit (30_encoding.md R61, R62) -/

theorem test_decode_hlt : decode [0b00000001] = .ok (.hlt, []) := by decide
theorem test_decode_ldi : decode [0b10000010, 0b00000011, 0b11110000] = .ok (.ldi 3 240, []) := by decide
theorem test_decode_prn : decode [0b01000111, 0b00000101] = .ok (.prn 5, []) := by decide
theorem test_decode_mul : decode [0b10100010, 0b00000001, 0b00000110] = .ok (.mul 1 6, []) := by decide
theorem test_decode_add : decode [0b10100000, 0b00000100, 0b00000010] = .ok (.add 4 2, []) := by decide
theorem test_decode_push : decode [0b01000101, 0b00000111] = .ok (.push 7, []) := by decide
theorem test_decode_pop : decode [0b01000110, 0b00000010] = .ok (.pop 2, []) := by decide
theorem test_decode_call : decode [0b01010000, 0b00000100] = .ok (.call 4, []) := by decide
theorem test_decode_ret : decode [0b00010001] = .ok (.ret, []) := by decide
theorem test_decode_cmp : decode [0b10100111, 0b00000000, 0b00000111] = .ok (.cmp 0 7, []) := by decide
theorem test_decode_jmp : decode [0b01010100, 0b00000011] = .ok (.jmp 3, []) := by decide
theorem test_decode_jeq : decode [0b01010101, 0b00000010] = .ok (.jeq 2, []) := by decide
theorem test_decode_jne : decode [0b01010110, 0b00000110] = .ok (.jne 6, []) := by decide

/-- Rejected by name: an unknown opcode before a missing operand, a register field, a missing byte. -/
theorem test_decode_rejects :
    decode [0b11111111] = .error (.unknownOpcode 0xFF) ∧ decode [0b10100000, 9, 10] = .error (.registerIndex 9) ∧
    decode [0b10000010, 0] = .error (.truncated 2) := by decide

/-- The table's words for the host: bit 0 is the least significant bit of the first byte. -/
theorem test_table_words :
    decodeTableWord 8 0x01 = some .hlt ∧ decodeTableWord 24 0x080082 = some (.ldi 0 8) ∧
    decodeTableWord 16 0x0247 = some (.prn 2) ∧ decodeTableWord 8 0xA2 = some (.mul 0 0) ∧
    decodeTableWord 16 0x0855 = none := by decide

/-- A table word placed at reset runs as the first instruction. -/
theorem test_fetch_word :
    step (State.reset.withFetchWord 8 0x01) = exec .hlt (State.reset.withFetchWord 8 0x01) ∧
    step (State.reset.withFetchWord 24 0x0901A2) = .next ((State.reset.withFetchWord 24 0x0901A2).faultedWith
      (.outOfBounds .registerIndex) 9) ∧
    step (State.reset.withFetchWord 8 0xA0) = exec (.add 0 0) (State.reset.withFetchWord 8 0xA0) :=
  ⟨rfl, rfl, rfl⟩

/-! ## One step of each instruction, from the vectors of 95_test_vectors.md -/

/-- V9: HLT at 255 reads no operand and leaves pc = 256. -/
theorem test_hlt_top : (after (codeAt 255 [0x01])).status = .halted ∧ (after (codeAt 255 [0x01])).pc = 256 := by decide

/-- V81: LDI R7 sets SP. -/
theorem test_ldi_sp : (after (codeAt 0 [0x82, 7, 0x80])).regs[7] = ⟨0x80, true⟩ := by decide

/-- V7: LDI at 253, with R1 undefined, completes and leaves pc = 256. -/
theorem test_ldi_top :
    (after (codeAtUndefined 253 [0x82, 1, 9])).regs[1] = ⟨9, true⟩ ∧
    (after (codeAtUndefined 253 [0x82, 1, 9])).pc = 256 := by decide

/-- V85: PRN R7 emits 244. -/
theorem test_prn_sp : (after (codeAt 9 [0x47, 7])).out = [244] ∧ (after (codeAt 9 [0x47, 7])).pc = 11 := by decide

/-- V84: PRN of an undefined register faults and emits nothing. -/
theorem test_prn_undefined :
    record (after (codeAtUndefined 9 [0x47, 5])) = some (.uninitializedRead .register, 5) ∧
    (after (codeAtUndefined 9 [0x47, 5])).out = [] := by decide

/-- V31: 200 + 100 is 44. -/
theorem test_add_wraps :
    (after (writeReg (writeReg (codeAt 0 [0xA0, 0, 1]) 0 200) 1 100)).regs[0] = ⟨44, true⟩ := by decide

/-- V34: ADD to R7 wraps with no check of SP. -/
theorem test_add_sp : (after (writeReg (codeAt 0 [0xA0, 7, 1]) 1 20)).regs[7] = ⟨8, true⟩ := by decide

/-- V37: 255 * 255 is 1. -/
theorem test_mul_low_byte :
    (after (writeReg (writeReg (codeAt 0 [0xA2, 0, 1]) 0 255) 1 255)).regs[0] = ⟨1, true⟩ := by decide

/-- V39: MUL of a register by itself squares it. -/
theorem test_mul_same : (after (writeReg (codeAt 0 [0xA2, 2, 2]) 2 12)).regs[2] = ⟨144, true⟩ := by decide

/-- V43: the comparison is unsigned. -/
theorem test_cmp_unsigned :
    (after (writeReg (writeReg (codeAt 0 [0xA7, 0, 1]) 0 128) 1 127)).fl = .greater := by decide

/-- V41: 0 against 255 gives L and replaces E. -/
theorem test_cmp_replaces :
    (after { writeReg (codeAt 0 [0xA7, 0, 1]) 1 255 with fl := .equal }).fl = .less := by decide

/-- V51: PUSH R7 stores the decremented SP. -/
theorem test_push_sp :
    (after (codeAt 0 [0x45, 7])).regs[7] = ⟨0xF3, true⟩ ∧
    Memory.get (after (codeAt 0 [0x45, 7])).mem 0xF3 = some 0xF3 := by decide

/-- V52: PUSH at SP = 0 faults with -1. -/
theorem test_push_bottom :
    record (after (writeReg (writeReg (codeAt 0 [0x45, 0]) 0 1) 7 0)) = some (.outOfBounds .stackPointer, -1) := by decide

/-- V56: POP R7 leaves the popped value + 1. -/
theorem test_pop_sp :
    (after (writeReg (memWrite (codeAt 0 [0x46, 7]) 0xF3 0x40) 7 0xF3)).regs[7] = ⟨0x41, true⟩ := by decide

/-- V58: POP at SP = 0xFF faults with 256. -/
theorem test_pop_top :
    record (after (writeReg (memWrite (codeAt 0 [0x46, 0]) 0xFF 5) 7 0xFF)) =
      some (.outOfBounds .stackPointer, 256) := by decide

/-- V65: a CALL that overwrites its own operand byte jumps through the operand it latched. -/
theorem test_call_own_operand :
    (after (writeReg (codeAt 0xF2 [0x50, 4]) 4 25)).pc = 25 ∧
    Memory.get (after (writeReg (codeAt 0xF2 [0x50, 4]) 4 25)).mem 0xF3 = some 0xF4 := by decide

/-- V62: CALL at 254 has no return address. -/
theorem test_call_no_return :
    record (after (writeReg (codeAt 254 [0x50, 4]) 4 25)) = some (.outOfBounds .returnAddress, 256) := by decide

/-- V10: RET at 255 reads no operand. -/
theorem test_ret_top :
    (after (memWrite (codeAt 255 [0x11]) 0xF4 3)).pc = 3 ∧
    (after (memWrite (codeAt 255 [0x11]) 0xF4 3)).regs[7] = ⟨0xF5, true⟩ := by decide

/-- V68: RET from an empty stack reads an undefined byte. -/
theorem test_ret_empty :
    record (after (codeAt 28 [0x11])) = some (.uninitializedRead .memory, 0xF4) := by decide

/-- V3: no advance after a jump. -/
theorem test_jmp_exact : (after (writeReg (codeAt 5 [0x54, 3]) 3 15)).pc = 15 := by decide

/-- V1: JEQ not taken skips its operand. -/
theorem test_jeq_not_taken :
    (after { writeReg (codeAt 12 [0x55, 2]) 2 15 with fl := .less }).pc = 14 := by decide

/-- V2: JEQ taken goes to exactly the register. -/
theorem test_jeq_taken : (after { writeReg (codeAt 12 [0x55, 2]) 2 15 with fl := .equal }).pc = 15 := by decide

/-- V71: JNE is taken before any CMP. -/
theorem test_jne_before_cmp : (after (writeReg (codeAt 20 [0x56, 3]) 3 15)).pc = 15 := by decide

/-- V74: JNE is not taken on E. -/
theorem test_jne_not_taken : (after { writeReg (codeAt 20 [0x56, 3]) 3 15 with fl := .equal }).pc = 22 := by decide

/-- V5, V6, V11, V13, V20: the faults of the cycle, in its order. -/
theorem test_cycle_faults :
    record (after { State.reset with pc := 256 }) = some (.outOfBounds .fetchAddress, 256) ∧
    record (after (codeAt 254 [0x82, 0])) = some (.outOfBounds .operandAddress, 256) ∧
    record (after (codeAt 255 [0xFF])) = some (.unknownOpcode, 0xFF) ∧
    record (after (codeAt 0 [0xA0, 9, 10])) = some (.outOfBounds .registerIndex, 9) ∧
    record (after State.reset) = some (.uninitializedRead .memory, 0) := by decide

/-- The observers: the result is read at the end only, and FL is seen as 00000LGE (70_reset_and_hazards.md R184, 10_state.md
R26). -/
theorem test_observers :
    State.reset.result = none ∧ (after (codeAt 13 [0x01])).result.isSome = true ∧
    (codeAt 254 [0x47]).trace.next = [some 0x47, none, none] ∧ flagByte .less = 0b100 ∧ flagByte .equal = 0b001 := by
  decide

/-- The port: a CALL fetches twice and then writes its return address (20_memory.md R51). -/
theorem test_port_call :
    stepAccesses (codeAt 15 [0x50, 4]) = [.read 15 0x50, .read 16 4, .write 0xF3 17] := by decide

/-! ## Witnesses: the hypotheses of each statement are met, each clause at a boundary of its range -/

theorem reset_inv : State.reset.Inv := ⟨by decide, by decide, by decide, fun _ h => nomatch h⟩

theorem running_inv {s : State} (h : s.mem.wf = true) (p : s.pc ≤ 258) (d : s.regs[Config.spIndex].defined = true)
    (r : s.status = .running) : s.Inv :=
  ⟨h, p, d, fun x hx => by rw [r] at hx; cases hx⟩

theorem witness_launch_lengths :
    (List.replicate 256 (0 : Byte)).length ≤ 256 ∧ 256 < (List.replicate 257 (0 : Byte)).length := by
  simp only [List.length_replicate]; decide

theorem witness_launch_keeps : ∃ s t, s.Inv ∧ launch s [0x01] = .ok t := ⟨State.reset, _, reset_inv, rfl⟩

/-- An instruction at the top of memory, and a fault at pc = 258. -/
theorem witness_step_keeps :
    (∃ s t, s.Inv ∧ step s = .next t ∧ s.pc = 255) ∧ ∃ s t, s.Inv ∧ step s = .next t ∧ s.pc = 258 :=
  ⟨⟨codeAt 255 [0x01], after (codeAt 255 [0x01]),
      running_inv (by decide) (by decide) (by decide) rfl, step_after (by decide), rfl⟩,
    { State.reset with pc := 258 }, after { State.reset with pc := 258 },
      running_inv (by decide) (by decide) (by decide) rfl, step_after (by decide), rfl⟩

theorem witness_no_undefined :
    ∃ s t, launch State.reset [0x47, 6] = .ok s ∧ Reaches s t ∧ t.status = .running ∧ t.out = [0] :=
  ⟨codeAt 0 [0x47, 6], after (codeAt 0 [0x47, 6]), by rfl, .step (step_after (by decide)) (.refl _), by decide, by decide⟩

theorem witness_no_undefined_faulted :
    ∃ s t r, launch State.reset [] = .ok s ∧ Reaches s t ∧ t.status = .faulted r :=
  ⟨State.reset, after State.reset, ⟨.uninitializedRead .memory, 0, 0⟩, by rfl,
    .step (step_after (by decide)) (.refl _), by decide⟩

theorem witness_defined_stays :
    ∃ (s t : State) (i : Fin 8), step s = .next t ∧ s.regs[i].defined = true :=
  ⟨codeAtUndefined 0 [0x45, 7], after (codeAtUndefined 0 [0x45, 7]), 7, step_after (by decide), by decide⟩

theorem witness_one_end : ∃ s t, EndsAt s t :=
  ⟨codeAt 0 [0x01], after (codeAt 0 [0x01]), .step (step_after (by decide)) (.refl _), by decide⟩

theorem witness_decode_of_encode : (Instr.ldi 7 255).WellFormed ∧ (Instr.cmp 7 0).WellFormed ∧ Instr.hlt.WellFormed := by
  decide

theorem witness_decoded_bytes : decode [0x82, 7, 255, 9] = .ok (.ldi 7 255, [9]) := by decide

theorem witness_length :
    lookup 0x00 = none ∧ lookup 0xC0 = none ∧ decode (0x82 :: [7, 255]) = .ok (.ldi 7 255, []) ∧
    decode (0x11 :: [1]) = .ok (.ret, [1]) := by decide

/-- One byte of each named group of 30_encoding.md R66. -/
theorem witness_illegal_groups :
    operandCount 0xC0 = 3 ∧ operandCount 0xFF = 3 ∧ (aluBit 0xA1 = true ∧ (0xA1 : Byte) ∉ [0xA0, 0xA2, 0xA7]) ∧
    (setsPc 0x10 = true ∧ (0x10 : Byte) ∉ [0x11, 0x50, 0x54, 0x55, 0x56]) := by decide

theorem witness_illegal_step :
    let s := codeAt 255 [0xFF]
    (0xFF : Byte) ∉ [0x01, 0x82, 0x47, 0xA2, 0xA0, 0x45, 0x46, 0x50, 0x11, 0xA7, 0x54, 0x55, 0x56] ∧
    s.status = .running ∧ s.pc ≤ 255 ∧ Memory.get s.mem s.pc = some 0xFF := by decide

theorem witness_register_field : 8 ≤ (8 : Byte).toNat ∧ 8 ≤ (255 : Byte).toNat ∧ (7 : Byte).toNat < 8 := by decide

theorem witness_step_runs :
    let s := codeAt 253 [0x82, 7, 255]
    s.status = .running ∧ s.bytesAtPc [0x82, 7, 255] ∧ decode [0x82, 7, 255] = .ok (.ldi 7 255, []) := by
  refine ⟨rfl, ?_, by decide⟩
  intro k hk
  match k, hk with
  | 0, _ => exact ⟨by decide, rfl⟩
  | 1, _ => exact ⟨by decide, rfl⟩
  | 2, _ => exact ⟨by decide, rfl⟩

theorem witness_running : (codeAt 0 [0x01]).status = .running ∧ (codeAt 255 [0x45]).status = .running := by decide

/-- Both cases of the statement: a check fails, and none does. -/
theorem witness_first_failing :
    (firstFailing (stepChecks (codeAt 255 [0x45]))).isSome = true ∧
    (firstFailing (stepChecks (codeAt 0 [0x01]))).isNone = true := by decide

theorem witness_precise : ∃ s t r, step s = .next t ∧ t.status = .faulted r :=
  ⟨codeAt 255 [0x47], after (codeAt 255 [0x47]), ⟨.outOfBounds .operandAddress, 255, 256⟩, step_after (by decide),
    by decide⟩

theorem witness_halt_step :
    let s := codeAt 255 [0x01]
    s.status = .running ∧ s.pc ≤ 255 ∧ Memory.get s.mem s.pc = some 0x01 := by decide

/-- The clauses of the statement on pc, one for each kind of instruction, and a fault. -/
theorem witness_pc_fault :
    let s := codeAt 0 [0x00]
    step s = .next (after s) ∧ s.regs[7] = ⟨0xF4, true⟩ ∧ (after s).isFaulted = true :=
  ⟨step_after (by decide), by decide, by decide⟩

theorem witness_pc_advance :
    let s := codeAt 253 [0x82, 0, 1]
    step s = .next (after s) ∧ (after s).isFaulted = false ∧ setsPc (s.fetchByte 0) = false ∧ (after s).pc = 256 :=
  ⟨step_after (by decide), by decide, by decide, by decide⟩

theorem witness_pc_ret :
    let s := memWrite (codeAt 255 [0x11]) 0xF4 255
    step s = .next (after s) ∧ (after s).isFaulted = false ∧ s.fetchByte 0 = 0x11 :=
  ⟨step_after (by decide), by decide, by decide⟩

theorem witness_pc_jumps :
    (∃ i : Fin 8, (codeAt 254 [0x54, 7]).fetchByte 1 = regByte i ∧ (codeAt 254 [0x54, 7]).fetchByte 0 = 0x54 ∧
      (after (codeAt 254 [0x54, 7])).isFaulted = false) ∧
    (∃ i : Fin 8, (codeAt 254 [0x55, 0]).fetchByte 1 = regByte i ∧ (codeAt 254 [0x55, 0]).fetchByte 0 = 0x55 ∧
      (after (codeAt 254 [0x55, 0])).isFaulted = false ∧ (after (codeAt 254 [0x55, 0])).pc = 256) ∧
    (∃ i : Fin 8, (codeAt 254 [0x56, 0]).fetchByte 1 = regByte i ∧ (codeAt 254 [0x56, 0]).fetchByte 0 = 0x56 ∧
      (after (codeAt 254 [0x56, 0])).isFaulted = false) ∧
    (∃ i : Fin 8, i ≠ 7 ∧ (codeAt 253 [0x50, 0]).fetchByte 1 = regByte i ∧ (codeAt 253 [0x50, 0]).fetchByte 0 = 0x50 ∧
      (after (codeAt 253 [0x50, 0])).isFaulted = false) ∧
    (∃ i : Fin 8, i = 7 ∧ (codeAt 10 [0x50, 7]).fetchByte 1 = regByte i ∧ (codeAt 10 [0x50, 7]).fetchByte 0 = 0x50 ∧
      (after (codeAt 10 [0x50, 7])).isFaulted = false) :=
  ⟨⟨7, by decide⟩, ⟨0, by decide⟩, ⟨0, by decide⟩, ⟨0, by decide⟩, ⟨7, by decide⟩⟩

theorem witness_flags_change : ∃ s t, step s = .next t ∧ t.fl ≠ s.fl :=
  ⟨codeAt 0 [0xA7, 0, 0], after (codeAt 0 [0xA7, 0, 0]), step_after (by decide), by decide⟩

theorem witness_print :
    (∃ s t, step s = .next t ∧ s.fetchByte 0 = 0x47 ∧ t.isFaulted = false) ∧
    (∃ s t, step s = .next t ∧ s.fetchByte 0 ≠ 0x47) ∧
    (∃ s t, step s = .next t ∧ s.fetchByte 0 = 0x47 ∧ t.isFaulted = true) :=
  ⟨⟨codeAt 0 [0x47, 7], _, step_after (by decide), by decide, by decide⟩,
    ⟨codeAt 0 [0x01], _, step_after (by decide), by decide⟩,
    ⟨codeAt 255 [0x47], _, step_after (by decide), by decide, by decide⟩⟩

/-- The bottom of memory: PUSH at SP = 1 writes address 0. -/
theorem witness_memory_change :
    let s := writeReg (codeAt 5 [0x45, 0]) 7 1
    step s = .next (after s) ∧ Memory.get (after s).mem 0 ≠ Memory.get s.mem 0 :=
  ⟨step_after (by decide), by decide⟩

theorem witness_register_change :
    (∃ s t, step s = .next t ∧ t.regs[(0 : Fin 8)] ≠ s.regs[(0 : Fin 8)]) ∧
    ∃ s t, step s = .next t ∧ t.regs[(7 : Fin 8)] ≠ s.regs[(7 : Fin 8)] :=
  ⟨⟨codeAt 0 [0x82, 0, 1], _, step_after (by decide), by decide⟩,
    ⟨codeAt 0 [0x45, 0], _, step_after (by decide), by decide⟩⟩

theorem witness_step : ∃ s t, step s = .next t ∧ t.status = .running :=
  ⟨codeAt 0 [0x45, 0], _, step_after (by decide), by decide⟩

/-- The clauses on the port: an opcode fetch at 255, and a read that it lists. -/
theorem witness_port :
    let s := codeAt 255 [0x01]
    step s = .next (after s) ∧ s.pc ≤ 255 ∧ Memory.get s.mem s.pc = some 0x01 ∧
    Access.read 255 0x01 ∈ stepAccesses s :=
  ⟨step_after (by decide), by decide, by decide, by decide⟩

theorem bytes_two {s : State} {a b : Byte} (h : s.pc + 1 ≤ 255 ∧ Memory.get s.mem s.pc = some a ∧
    Memory.get s.mem (s.pc + 1) = some b) : s.bytesAtPc [a, b] := by
  intro k hk
  match k, hk with
  | 0, _ => exact ⟨by omega, h.2.1⟩
  | 1, _ => exact ⟨h.1, h.2.2⟩

/-- P5: a PUSH writes HLT over the byte fetched next. -/
theorem witness_writes_next :
    let s := writeReg (writeReg (codeAt 6 [0x45, 0, 0]) 7 9) 0 1
    (0 : Fin 8) ≠ 7 ∧ s.status = .running ∧ s.bytesAtPc [0x45, regByte 0] ∧ s.regs[(0 : Fin 8)] = ⟨0x01, true⟩ ∧
    s.regs[7] = ⟨9, true⟩ ∧ (9 : Byte).toNat = s.pc + 3 :=
  ⟨by decide, by decide, bytes_two (by decide), by decide, by decide, by decide⟩

/-- V65: a CALL at 0xF2 with SP = 0xF4 writes its own operand byte; and at 253, the last address that may call. -/
theorem witness_writes_own :
    (let s := writeReg (codeAt 0xF2 [0x50, 4]) 4 25;
      (4 : Fin 8) ≠ 7 ∧ s.status = .running ∧ s.bytesAtPc [0x50, regByte 4] ∧ s.pc ≤ 253 ∧
      s.regs[(4 : Fin 8)] = ⟨25, true⟩ ∧ s.regs[7] = ⟨0xF4, true⟩ ∧ (0xF4 : Byte).toNat = s.pc + 2) ∧
    (let s := writeReg (codeAt 253 [0x50, 4]) 7 255;
      s.bytesAtPc [0x50, regByte 4] ∧ s.pc ≤ 253 ∧ (255 : Byte).toNat = s.pc + 2) :=
  ⟨⟨by decide, by decide, bytes_two (by decide), by decide, by decide, by decide, by decide⟩,
    bytes_two (by decide), by decide, by decide⟩

theorem witness_greater_less :
    let s := { writeReg (codeAt 20 [0x56, 3]) 3 15 with fl := .less }
    isEqual .greater = isEqual s.fl ∧ step s = .next (after s) := ⟨by decide, step_after (by decide)⟩

/-- A step from a state with an undefined register, which the step reads in no case. -/
theorem witness_undefined_byte :
    let s := codeAtUndefined 0 [0x82, 0, 1]
    s.regs[(0 : Fin 8)].defined = false ∧ step s = .next (after s) := ⟨by decide, step_after (by decide)⟩

/-- The whole rules: a state that fetches the opcode, one that faults at each end, and one past memory. -/
theorem witness_rules :
    (∀ ir ∈ [(0x82 : Byte), 0xA0, 0xA2, 0xA7, 0x54],
      (codeAt 255 [ir]).status = .running ∧ fetchesOnly (codeAt 255 [ir]) ir ∧
      (codeAt 0 [ir, 0, 1]).status = .running ∧ fetchesOnly (codeAt 0 [ir, 0, 1]) ir ∧
      fetchesOnly { State.reset with pc := 256 } ir) := by
  intro ir _
  refine ⟨rfl, ?_, rfl, ?_, ?_⟩
  · intro _ b hb
    have e : Memory.get (codeAt 255 [ir]).mem (codeAt 255 [ir]).pc = some ir := rfl
    rw [e] at hb; exact (Option.some.inj hb).symm
  · intro _ b hb
    have e : Memory.get (codeAt 0 [ir, 0, 1]).mem (codeAt 0 [ir, 0, 1]).pc = some ir := rfl
    rw [e] at hb; exact (Option.some.inj hb).symm
  · intro h; exact absurd h (by decide)

theorem witness_one_register : (writeReg State.reset 0 72).regs[(0 : Fin 8)] = ⟨72, true⟩ ∧
    State.reset.regs[(7 : Fin 8)] = ⟨0xF4, true⟩ := by decide

theorem witness_two_registers :
    let s := writeReg (writeReg State.reset 0 255) 1 255
    s.regs[(0 : Fin 8)] = ⟨255, true⟩ ∧ s.regs[(1 : Fin 8)] = ⟨255, true⟩ := by decide

/-- SP = 1, the lowest that may push, and PUSH R7. -/
theorem witness_push :
    (let s := writeReg State.reset 7 1;
      s.regs[7] = ⟨1, true⟩ ∧ (1 : Byte).toNat ≠ 0 ∧ s.regs[(0 : Fin 8)] = ⟨0, true⟩) ∧
    State.reset.regs[7] = ⟨0xF4, true⟩ ∧ State.reset.regs[(7 : Fin 8)] = ⟨0xF4, true⟩ := by decide

/-- SP = 254 and a popped 254, the highest that may pop. -/
theorem witness_pop :
    let s := memWrite (writeReg State.reset 7 254) 254 254
    s.regs[7] = ⟨254, true⟩ ∧ Memory.get s.mem (254 : Byte).toNat = some 254 ∧
    (if (0 : Fin 8) = 7 then (254 : Byte).toNat else (254 : Byte).toNat) + 1 ≤ 255 ∧
    (if (7 : Fin 8) = 7 then (254 : Byte).toNat else (254 : Byte).toNat) + 1 ≤ 255 := by decide

theorem witness_call :
    let s := writeReg (codeAt 253 [0x50, 4]) 7 1
    s.pc ≤ 253 ∧ s.regs[7] = ⟨1, true⟩ ∧ (1 : Byte).toNat ≠ 0 ∧ s.regs[(4 : Fin 8)] = ⟨0, true⟩ := by decide

theorem witness_return :
    let s := memWrite (writeReg State.reset 7 254) 254 17
    s.regs[7] = ⟨254, true⟩ ∧ Memory.get s.mem (254 : Byte).toNat = some 17 ∧ (254 : Byte).toNat ≤ 254 := by decide

/-- The clauses of the stack limits. -/
theorem witness_stack_limits :
    (let s := writeReg (codeAt 253 [0x50, 4]) 7 0;
      s.regs[7] = ⟨0, true⟩ ∧ s.pc ≤ 253) ∧
    ((codeAt 254 [0x50, 4]).pc = 254 ∧ (codeAt 254 [0x50, 4]).regs[7] = ⟨0xF4, true⟩) ∧
    (let s := memWrite (writeReg State.reset 7 255) 255 5;
      s.regs[7] = ⟨255, true⟩ ∧ Memory.get s.mem (255 : Byte).toNat = some 5 ∧
      (if (0 : Fin 8) = 7 then (5 : Byte) else 255) = 255) ∧
    (let s := memWrite State.reset 0xF4 255;
      Memory.get s.mem (0xF4 : Byte).toNat = some 255 ∧ (if (7 : Fin 8) = 7 then (255 : Byte) else 0xF4) = 255) := by
  decide

theorem witness_undefined_read :
    let s := writeReg (codeAtUndefined 253 []) 1 0
    s.regs[(0 : Fin 8)].defined = false ∧ s.regs[(1 : Fin 8)].defined = true ∧ s.regs[7] = ⟨0xF4, true⟩ ∧
    (0xF4 : Byte).toNat ≠ 0 ∧ s.pc ≤ 253 := by decide

theorem witness_undefined_stack :
    State.reset.regs[7] = ⟨0xF4, true⟩ ∧ Memory.get State.reset.mem (0xF4 : Byte).toNat = none := by decide

/-- The frames: each of their instructions answers a next state, completed; a fault too. -/
theorem witness_frames :
    (∀ k ∈ [Instr.hlt, .prn 0, .cmp 0 1, .jmp 0, .jeq 0, .jne 0, .ldi 0 1, .add 0 1, .mul 0 1, .push 0, .call 0],
      exec k State.reset = .next (afterExec k State.reset) ∧ (afterExec k State.reset).isFaulted = false) ∧
    (∀ k ∈ [Instr.pop 0, .pop 7, .ret], exec k (memWrite State.reset 0xF4 3) =
      .next (afterExec k (memWrite State.reset 0xF4 3)) ∧
      (afterExec k (memWrite State.reset 0xF4 3)).isFaulted = false) ∧
    (∀ k ∈ [Instr.prn 8, .ldi 8 0, .push 8, .pop 8], exec k State.reset = .next (afterExec k State.reset) ∧
      (afterExec k State.reset).isFaulted = true) := by
  refine ⟨?_, ?_, ?_⟩ <;> intro k hk <;> refine ⟨exec_after ?_, ?_⟩ <;> revert k <;> decide

/-- The clause of the frame of pushes on addresses: one that `pushPointer` gives, and one it does not. -/
theorem witness_frame_pushes :
    pushPointer State.reset = .ok 0xF3 ∧ (0xF2 : Nat) ≠ (0xF3 : Byte).toNat ∧
    pushPointer (writeReg State.reset 7 0) = .error ⟨.outOfBounds .stackPointer, -1⟩ := by decide

/-- The pair PUSH, POP: SP = 1, and each of the four register cases. -/
theorem witness_push_pop :
    let s := writeReg (writeReg State.reset 7 1) 0 254
    s.regs[(0 : Fin 8)] = ⟨254, true⟩ ∧ s.regs[7] = ⟨1, true⟩ ∧ (1 : Byte).toNat ≠ 0 ∧ (0 : Fin 8) ≠ 7 ∧
    s.regs[(7 : Fin 8)] = ⟨1, true⟩ ∧ (254 : Byte).toNat ≤ 254 := by decide

theorem witness_lifo :
    let s := writeReg (writeReg (writeReg State.reset 7 2) 0 1) 1 2
    (0 : Fin 8) ≠ 7 ∧ (1 : Fin 8) ≠ 7 ∧ (2 : Fin 8) ≠ 7 ∧ (3 : Fin 8) ≠ 7 ∧ (2 : Fin 8) ≠ 3 ∧
    s.regs[(0 : Fin 8)] = ⟨1, true⟩ ∧ s.regs[(1 : Fin 8)] = ⟨2, true⟩ ∧ s.regs[7] = ⟨2, true⟩ ∧ 2 ≤ (2 : Byte).toNat := by
  decide

/-- A CALL at 253, and the RET reached from the state it left. -/
theorem witness_call_return :
    ∃ (s t u : State) (r : Byte), s.isFaulted = false ∧ exec (.call r) s = .next t ∧ t.isFaulted = false ∧
      u.regs[7] = t.regs[7] ∧ Memory.get u.mem t.regs[7].value.toNat = Memory.get t.mem t.regs[7].value.toNat :=
  ⟨codeAt 253 [], afterExec (.call 4) (codeAt 253 []), afterExec (.call 4) (codeAt 253 []), 4, rfl,
    exec_after (by decide), by decide, rfl, rfl⟩

theorem witness_branch :
    let s := writeReg (writeReg State.reset 0 128) 1 127
    let u := { s with fl := .greater }
    s.regs[(0 : Fin 8)] = ⟨128, true⟩ ∧ s.regs[(1 : Fin 8)] = ⟨127, true⟩ ∧
    u.fl = (afterExec (.cmp 0 1) s).fl ∧ u.regs[(2 : Fin 8)] = ⟨0, true⟩ := by decide

end Sys2Proof.Tests
end

section
/-! PROOFS. The program counter over a step (10_state.md R25, 40_execution_cycle.md R89): what each kind of commit leaves
in pc, which instruction stands at pc when its opcode byte is known, and the law assembled from the two. -/

namespace Sys2Proof.Machine

/-! ## The instruction at pc, from the bytes fetched -/

/-- The opcode byte fetched settles the instruction at pc: it is assembled from that opcode and the bytes after it. -/
theorem eq_assemble_of_fetchByte {s : State} {i : Instr} {o : Opcode} (hb : s.bytesAtPc (encode i))
    (ho : s.fetchByte 0 = o.byte) : i = o.assemble (s.fetchByte 1) (s.fetchByte 2) := by
  have hop : i.opcode = o := by
    rw [fetchByte_zero hb] at ho
    simpa using lookup_eq_some.mpr ho
  subst hop
  cases i with
  | hlt | ret => rfl
  | prn | push | pop | call | jmp | jeq | jne => rw [fetchByte_one hb rfl]; rfl
  | ldi | mul | add | cmp => rw [fetchByte_one hb rfl, fetchByte_two hb rfl]; rfl

/-- A byte that passes the field check is the operand byte of a register (30_encoding.md R64). -/
theorem exists_regByte_of_isReg {b : Byte} (h : isReg b = true) : ∃ k : Fin 8, b = regByte k :=
  ⟨⟨b.toNat, of_decide_eq_true h⟩, eq_regByte.mpr rfl⟩

/-- The register that an operand byte names is the one it is the byte of. -/
theorem eq_of_regByte_toNat {j k : Fin 8} (h : (regByte j).toNat = k.val) : k = j :=
  Fin.ext (by rw [← h, regByte_toNat])

/-- Every instruction that sets pc, except RET, has an operand byte that names a register. -/
theorem exists_regByte_of_setsPc {s : State} {i : Instr} (hw : i.WellFormed) (hb : s.bytesAtPc (encode i))
    (hc : setsPc (s.fetchByte 0) = true) (hr : s.fetchByte 0 ≠ 0x11) : ∃ k : Fin 8, s.fetchByte 1 = regByte k := by
  rw [fetchByte_zero hb] at hc hr
  cases i with
  | call | jmp | jeq | jne => rw [fetchByte_one hb rfl]; exact exists_regByte_of_isReg hw
  | ret => exact absurd rfl hr
  | hlt | ldi | prn | mul | add | push | pop | cmp => exact absurd hc (by simp only [Instr.opcode]; decide)

/-! ## What a commit leaves in pc -/

/-- Where bit C of the opcode byte is 0, a commit moves pc past the instruction (40_execution_cycle.md R85). -/
theorem Commits.pc_of_not_setsPc {i : Instr} {s t : State} (h : Commits i s t) (hc : setsPc i.opcode.byte = false) :
    t.pc = s.pc + 1 + operandCount i.opcode.byte := by
  rw [operandCount_byte]
  cases i <;> simp only [Commits] at h
  case hlt => subst h; rfl
  case ldi => obtain ⟨_, _, rfl⟩ := h; rfl
  case prn => obtain ⟨_, _, _, _, rfl⟩ := h; rfl
  case push => obtain ⟨_, _, _, _, _, _, _, rfl⟩ := h; rfl
  case pop => obtain ⟨_, _, _, _, _, _, ⟨_, _, rfl⟩ | ⟨_, _, rfl⟩⟩ := h <;> rfl
  case add | mul | cmp => obtain ⟨_, _, _, _, _, _, _, _, rfl⟩ := h; rfl
  case call | ret | jmp | jeq | jne => exact absurd hc (by simp only [Instr.opcode]; decide)

/-- RET commits the byte at SP as pc (44_control_transfer.md R131). -/
theorem Commits.pc_ret {s t : State} (h : Commits .ret s t) :
    Memory.get s.mem s.regs[7].value.toNat = some (BitVec.ofNat 8 t.pc) ∧ t.pc ≤ 255 := by
  obtain ⟨sp, v, hsp, hv, -, rfl⟩ := h
  simp only [hsp, hv, BitVec.ofNat_toNat, BitVec.setWidth_eq, true_and]
  exact Nat.le_of_lt_succ v.isLt

/-- JMP commits its register as pc (44_control_transfer.md R132). -/
theorem Commits.pc_jmp {k : Fin 8} {s t : State} (h : Commits (.jmp (regByte k)) s t) :
    t.pc = s.regs[k].value.toNat := by
  obtain ⟨j, v, hj, hv, rfl⟩ := h
  obtain rfl := eq_of_regByte_toNat hj
  rw [hv]

/-- JEQ commits its register as pc where FL is E, else the next instruction (44_control_transfer.md R133). -/
theorem Commits.pc_jeq {k : Fin 8} {s t : State} (h : Commits (.jeq (regByte k)) s t) :
    t.pc = if s.fl = .equal then s.regs[k].value.toNat else s.pc + 2 := by
  obtain ⟨j, v, hj, hv, rfl⟩ := h
  obtain rfl := eq_of_regByte_toNat hj
  simp only [hv, isEqual_iff]

/-- JNE commits the next instruction as pc where FL is E, else its register (44_control_transfer.md R134). -/
theorem Commits.pc_jne {k : Fin 8} {s t : State} (h : Commits (.jne (regByte k)) s t) :
    t.pc = if s.fl = .equal then s.pc + 2 else s.regs[k].value.toNat := by
  obtain ⟨j, v, hj, hv, rfl⟩ := h
  obtain rfl := eq_of_regByte_toNat hj
  simp only [hv, isEqual_iff]

/-- CALL commits its register as pc, read after the push: for R7, the decremented SP (44_control_transfer.md R130, D22). -/
theorem Commits.pc_call {k : Fin 8} {s t : State} (h : Commits (.call (regByte k)) s t) :
    t.pc = if k = 7 then s.regs[7].value.toNat - 1 else s.regs[k].value.toNat := by
  obtain ⟨j, sp, v, hj, -, hsp, -, hv, rfl⟩ := h
  obtain rfl := eq_of_regByte_toNat hj
  rcases hv with ⟨h7, rfl⟩ | ⟨h7, hv⟩
  · rw [if_pos h7, hsp]; exact sub_one_toNat sp
  · rw [if_neg h7, hv]

/-! ## The law -/

/-- Settles O22: a step is a commit of the instruction at pc or a fault (`step_cases`); each clause names that instruction
by its opcode byte and cites what its commit leaves in pc. -/
theorem programCounterLaw : Obligations.ProgramCounterLaw := by
  intro s t hstep
  obtain ⟨-, ⟨i, hw, hb, hcommit, hnf⟩ | ⟨r, rfl⟩⟩ := step_cases hstep
  · have commits {o : Opcode} (ho : s.fetchByte 0 = o.byte) :
        Commits (o.assemble (s.fetchByte 1) (s.fetchByte 2)) s t := eq_assemble_of_fetchByte hb ho ▸ hcommit
    refine ⟨fun hf => absurd hf (by simp [hnf]), fun _ => ⟨fun hc => ?_, fun h0 => ?_, fun k hk => ?_, ?_⟩⟩
    · rw [fetchByte_zero hb] at hc ⊢
      exact hcommit.pc_of_not_setsPc hc
    · exact (commits (o := .ret) h0).pc_ret
    · rw [hk] at commits
      exact ⟨fun h0 => (commits (o := .jmp) h0).pc_jmp, fun h0 => (commits (o := .jeq) h0).pc_jeq,
        fun h0 => (commits (o := .jne) h0).pc_jne, fun h0 => (commits (o := .call) h0).pc_call⟩
    · exact exists_regByte_of_setsPc hw hb
  · exact ⟨fun _ => takeFault_pc s r, fun hf => absurd hf (by simp)⟩

end Sys2Proof.Machine
end

section
/-! PROOFS. The opcode byte over the whole opcode space (30_encoding.md R62 to R69): what its fields say of the 13 opcodes,
how many bytes are illegal and what a fetch of one raises, and how many bytes the decoder takes. -/

namespace Sys2Proof

/-! ## The fields of the 13 opcode bytes (30_encoding.md R60, R62) -/

/-- No opcode has AA = 3 (30_encoding.md R68). -/
theorem operandCount_byte_le_two (o : Opcode) : operandCount o.byte ≤ 2 := by
  rw [operandCount_byte]
  cases o.format <;> decide

/-- No opcode has the byte 0 (30_encoding.md R66). -/
theorem byte_ne_zero (o : Opcode) : o.byte ≠ 0 := by
  cases o <;> decide

/-- The opcodes with bit B are ADD, MUL and CMP (30_encoding.md R67). -/
theorem aluBit_byte_iff (o : Opcode) : aluBit o.byte = true ↔ o.byte ∈ ([0xA0, 0xA2, 0xA7] : List Byte) := by
  cases o <;> decide

/-- The opcodes with bit C are RET, CALL, JMP, JEQ and JNE (30_encoding.md R60, R62). -/
theorem setsPc_byte_iff (o : Opcode) :
    setsPc o.byte = true ↔ o.byte ∈ ([0x11, 0x50, 0x54, 0x55, 0x56] : List Byte) := by
  cases o <;> decide

/-- Only JMP has DDDD 0100 (30_encoding.md R63). -/
theorem opcodeId_byte_eq_four_iff (o : Opcode) : opcodeId o.byte = 0b0100 ↔ o = .jmp := by
  cases o <;> decide

/-! ## The illegal bytes (30_encoding.md R66) -/

/-- A byte is illegal exactly when it is not in the byte column of the table. -/
theorem lookup_eq_none_iff_not_mem {ir : Byte} : lookup ir = none ↔ ir ∉ Opcode.all.map Opcode.byte := by
  rw [lookup_eq_none, List.mem_map]
  exact ⟨fun h ⟨o, _, e⟩ => h o e.symm, fun h o e => h ⟨o, mem_all o, e.symm⟩⟩

/-- Of the numbers 0..255, those whose byte names an opcode are the 13 of the table, each once. -/
theorem legal_perm_bytes :
    ((List.range 256).filter fun n => !(lookup (BitVec.ofNat 8 n)).isNone).Perm
      (Opcode.all.map fun o => o.byte.toNat) := by
  refine (List.perm_ext_iff_of_nodup (List.nodup_range.filter _) (by decide)).mpr fun n => ?_
  simp only [List.mem_filter, List.mem_range, List.mem_map, Bool.not_eq_true', Option.isNone_eq_false_iff,
    Option.isSome_iff_exists, lookup_eq_some]
  constructor
  · rintro ⟨hn, o, ho⟩
    exact ⟨o, mem_all o, by rw [← ho, BitVec.toNat_ofNat, Nat.mod_eq_of_lt hn]⟩
  · rintro ⟨o, -, rfl⟩
    exact ⟨o.byte.isLt, o, by rw [BitVec.ofNat_toNat, BitVec.setWidth_eq]⟩

/-- The illegal bytes are the 256 - 13 others. -/
theorem illegal_count : ((List.range 256).filter fun n => (lookup (BitVec.ofNat 8 n)).isNone).length = 243 := by
  have hsplit := List.length_eq_length_filter_add (l := List.range 256) fun n => (lookup (BitVec.ofNat 8 n)).isNone
  have hlegal := legal_perm_bytes.length_eq
  have h13 : (Opcode.all.map fun o => o.byte.toNat).length = 13 := rfl
  rw [List.length_range] at hsplit
  omega

/-! ## How many bytes the decoder takes (30_encoding.md R69) -/

/-- An instruction has as many operand bytes as field AA of its opcode byte says. -/
theorem operands_length (i : Instr) : i.operands.length = operandCount i.opcode.byte := by
  rw [operandCount_byte]
  cases i <;> rfl

/-- An illegal opcode byte is rejected whatever follows it. -/
theorem decode_of_lookup_eq_none {ir : Byte} (rest : List Byte) (h : lookup ir = none) :
    decode (ir :: rest) = .error (.unknownOpcode ir) := by
  rw [decode, h]

/-- Where the decoder accepts, it takes AA operand bytes and leaves the rest. -/
theorem decode_cons_rest {ir : Byte} {rest rest' : List Byte} {i : Instr} (h : decode (ir :: rest) = .ok (i, rest')) :
    rest' = rest.drop (operandCount ir) ∧ operandCount ir ≤ rest.length := by
  rw [decode] at h
  split at h
  · exact absurd h (by simp)
  · split at h
    · exact absurd h (by simp)
    · next hlen =>
      split at h
      · exact absurd h (by simp)
      · obtain ⟨-, rfl⟩ : _ ∧ rest.drop (operandCount ir) = rest' := by simpa using h
        exact ⟨rfl, Nat.le_of_not_lt hlen⟩

namespace Machine

/-- The fetch of an illegal byte raises UnknownOpcode(byte), before any operand byte is asked for
(40_execution_cycle.md R82). -/
theorem fetchDecode_of_lookup_eq_none {s : State} {ir : Byte} (hf : fetchOpcode s = .ok ir) (hl : lookup ir = none) :
    fetchDecode s = .error (raiseUnknownOpcode ir) := by
  simp only [fetchDecode, hf, ok_bind, hl]

/-! ## The obligations -/

/-- Settles O12: the length is that of the operands plus the opcode byte, and AA is at most 2. -/
theorem lengthIsOnePlusOperandCount : Obligations.LengthIsOnePlusOperandCount := by
  refine ⟨fun i => ?_, fun _ rest h => decode_of_lookup_eq_none rest h, fun _ _ _ _ h => decode_cons_rest h⟩
  have hlen : (encode i).length = i.operands.length + 1 := List.length_cons
  have hop := operands_length i
  have hle := operandCount_byte_le_two i.opcode
  omega

/-- Settles O15: the count is 256 less the 13 opcode bytes, each named group is excluded by what its field says of the 13,
and the lookup fails before anything else is read. -/
theorem illegalBytesRaiseUnknownOpcode : Obligations.IllegalBytesRaiseUnknownOpcode := by
  refine ⟨illegal_count, fun b hgroup => lookup_eq_none.mpr ?_, fun s b hb hrun hpc hget => ?_⟩
  · rintro o rfl
    obtain hAA | h0 | ⟨hB, hnot⟩ | ⟨hC, hnot⟩ := hgroup
    · have := operandCount_byte_le_two o
      omega
    · exact byte_ne_zero o h0
    · exact hnot ((aluBit_byte_iff o).mp hB)
    · exact hnot ((setsPc_byte_iff o).mp hC)
  · have hlookup : lookup b = none := lookup_eq_none_iff_not_mem.mpr hb
    exact step_of_fetchDecode_error hrun
      (fetchDecode_of_lookup_eq_none (fetchOpcode_eq_ok.mpr ⟨hpc, hget⟩) hlookup)

/-- Settles O14: the lookup is by the whole byte (`lookup_eq_some`), so two opcodes that share DDDD are told apart by it. -/
theorem dispatchUsesWholeByte : Obligations.DispatchUsesWholeByte := by
  refine ⟨fun _ _ => lookup_eq_some, fun p hp => ?_, opcodeId_byte_eq_four_iff⟩
  have hpair : opcodeId p.1.byte = opcodeId p.2.byte ∧ p.1.byte ≠ p.2.byte := by
    revert p
    decide
  exact ⟨hpair.1, hpair.2, lookup_byte p.1, lookup_byte p.2⟩

end Machine
end Sys2Proof
end

section
/-! PROOFS. When a step is enabled (40_execution_cycle.md R80): an instruction always answers a next state, so from Running
a step does too, whether its fetch passes or raises. -/

namespace Sys2Proof.Machine

/-- However an instruction's checks end, it settles in a next state. -/
theorem exists_settle_next (s : State) (x : Except Raise State) : ∃ t, settle s x = .next t := by
  cases x with
  | ok t => exact ⟨t, settle_ok s t⟩
  | error r => exact ⟨takeFault s r, settle_error s r⟩

/-- Every instruction answers a next state from every state: each ends in `settle`. -/
theorem exists_exec_next (i : Instr) (s : State) : ∃ t, exec i s = .next t := by
  cases i with
  | hlt => exact exists_settle_next s (.ok _)
  | ldi | prn | mul | add | push | pop | call | ret | cmp | jmp | jeq | jne => exact exists_settle_next s _

/-- From Running, a step is the execution of a well-formed instruction where the fetch passes, and else the fault that the
fetch raises (40_execution_cycle.md R80, R88). -/
theorem step_of_running {s : State} (hs : s.status = .running) :
    (∃ i : Instr, i.WellFormed ∧ step s = exec i s) ∨ ∃ r, step s = .next (takeFault s r) := by
  cases hf : fetchDecode s with
  | ok i => exact .inl ⟨i, (fetchDecode_eq_ok.mp hf).1, step_of_fetchDecode_ok hs hf⟩
  | error r => exact .inr ⟨r, step_of_fetchDecode_error hs hf⟩

/-- A step is enabled exactly when the status is Running (40_execution_cycle.md R80). -/
theorem exists_step_next_iff {s : State} : (∃ t, step s = .next t) ↔ s.status = .running := by
  constructor
  · rintro ⟨t, ht⟩
    exact (step_next.mp ht).1
  · intro hs
    obtain ⟨i, -, hi⟩ | ⟨r, hr⟩ := step_of_running hs
    · rw [hi]
      exact exists_exec_next i s
    · exact ⟨takeFault s r, hr⟩

/-- Settles O18: the reset state is Running at pc 0, and from Running the fetch decides between an instruction's execution
and a fault, each of which is a next state. -/
theorem stepEnabledExactlyWhenRunning : Obligations.StepEnabledExactlyWhenRunning := by
  refine ⟨rfl, rfl, fun s => exists_step_next_iff, fun s hs => ?_⟩
  obtain hexec | ⟨r, hr⟩ := step_of_running hs
  · exact .inl hexec
  · exact .inr ⟨r.kind, r.info, by rw [hr, takeFault_eq]⟩

end Sys2Proof.Machine
end

section
/-! PROOFS. A step read along its check list (60_exceptions.md R153): `Answers` says that a computation raises what the
first failing check of a list says, and else answers a value. A sequence of computations answers along the appended lists;
the fetch of a two-operand opcode does so, and LDI adds no check of its own (41_system_and_data.md R101). -/

namespace Sys2Proof.Machine

/-! ## Computations along a check list -/

/-- The fault of the first check of `checks` that fails is raised; where none fails, the answer is `a`. -/
def Answers {α : Type} (x : Except Raise α) (checks : List Check) (a : α) : Prop :=
  x = match firstFailing checks with
    | some c => .error ⟨c.kind, c.info⟩
    | none => .ok a

section Answers

variable {α β : Type} {a : α} {x : Except Raise α} {cs : List Check}

/-- No check is left: the computation answers. -/
theorem answers_nil : Answers (.ok a) [] a := rfl

/-- A check at the head that fails is the one raised. -/
theorem answers_cons_of_fails {c : Check} (hc : c.fails = true) :
    Answers x (c :: cs) a ↔ x = .error ⟨c.kind, c.info⟩ := by
  rw [Answers, firstFailing_of_fails hc]

/-- A check at the head that passes raises nothing. -/
theorem answers_cons_of_passes {c : Check} (hc : c.fails = false) : Answers x (c :: cs) a ↔ Answers x cs a := by
  rw [Answers, Answers, firstFailing_of_passes hc]

/-- In sequence, the checks of the first computation come before those of the rest. -/
theorem Answers.bind {f : α → Except Raise β} {ds : List Check} {b : β} (hx : Answers x cs a)
    (hf : Answers (f a) ds b) : Answers (x >>= f) (cs ++ ds) b := by
  rw [Answers] at hx hf ⊢
  rw [hx, firstFailing_append]
  cases firstFailing cs with
  | some c => rfl
  | none => exact hf

/-- A step from Running goes by the checks of its fetch where the instruction it fetches commits. -/
theorem stepsByChecks_of_answers {s t : State} {i : Instr} (hs : s.status = .running)
    (h : Answers (fetchDecode s) cs i) (ht : fetchDecode s = .ok i → Commits i s t) : stepsByChecks s cs t := by
  rw [Answers] at h
  rw [stepsByChecks]
  cases hcs : firstFailing cs with
  | some c =>
    rw [hcs] at h
    exact step_of_fetchDecode_error hs h
  | none =>
    rw [hcs] at h
    rw [step_of_fetchDecode_ok hs h, exec_of_commits (ht h)]

end Answers

/-! ## Fetch and decode along their checks -/

/-- A fetch of the byte at `n` asks whether `n` is an address, and then whether the byte is defined (20_memory.md R42). -/
theorem answers_byteAt {m : Memory} {n : Nat} {k : FaultKind} {x : Except Raise Byte}
    (hout : 255 < n → x = .error ⟨k, (n : Int)⟩)
    (hnone : n ≤ 255 → Memory.get m n = none → x = .error ⟨.uninitializedRead .memory, (n : Int)⟩)
    (hsome : ∀ b, n ≤ 255 → Memory.get m n = some b → x = .ok b) :
    Answers x [⟨decide (n > 255), k, (n : Int)⟩, ⟨(Memory.get m n).isNone, .uninitializedRead .memory, (n : Int)⟩]
      ((Memory.get m n).getD 0) := by
  by_cases hn : n > 255
  · exact (answers_cons_of_fails (decide_eq_true hn)).mpr (hout hn)
  · rw [answers_cons_of_passes (decide_eq_false hn)]
    cases hb : Memory.get m n with
    | none => exact (answers_cons_of_fails rfl).mpr (hnone (Nat.le_of_not_lt hn) hb)
    | some b =>
      rw [answers_cons_of_passes rfl, hsome b (Nat.le_of_not_lt hn) hb]
      exact answers_nil

/-- The opcode fetch goes by items 1 and 2 of 60_exceptions.md R153. -/
theorem fetchOpcode_answers (s : State) : Answers (fetchOpcode s) (fetchChecks s) (s.fetchByte 0) :=
  answers_byteAt (fun h => fetchOpcode_eq_error.mpr (.inl ⟨h, rfl⟩))
    (fun h hb => fetchOpcode_eq_error.mpr (.inr ⟨h, hb, rfl⟩)) (fun _ h hb => fetchOpcode_eq_ok.mpr ⟨h, hb⟩)

/-- An operand fetch goes by item 4 of 60_exceptions.md R153. -/
theorem fetchOperand_answers (s : State) (k : Nat) : Answers (fetchOperand s k) (operandChecks s k) (s.fetchByte k) :=
  answers_byteAt (fun h => fetchOperand_eq_error.mpr (.inl ⟨h, rfl⟩))
    (fun h hb => fetchOperand_eq_error.mpr (.inr ⟨h, hb, rfl⟩)) (fun _ h hb => fetchOperand_eq_ok.mpr ⟨h, hb⟩)

/-- The end of a decode: the first register field above 7 is raised, else the instruction is answered. -/
def fieldsChecked (fields : List Byte) (i : Instr) : Except Raise Instr :=
  match fields.find? fun b => decide (7 < b.toNat) with
  | some v => .error (raiseRegisterIndex v)
  | none => .ok i

/-- The register fields are checked in turn (40_execution_cycle.md R84). -/
theorem fieldsChecked_answers (fields : List Byte) (i : Instr) :
    Answers (fieldsChecked fields i) (fields.map fieldCheck) i := by
  induction fields with
  | nil => exact answers_nil
  | cons b rest ih =>
    rw [fieldsChecked, List.map_cons, List.find?_cons]
    cases hb : decide (7 < b.toNat) with
    | true => exact (answers_cons_of_fails hb).mpr rfl
    | false => exact (answers_cons_of_passes hb).mpr ih

/-- Where the opcode byte, if one is fetched, is that of `o`, fetch and decode read it and then go on as for `o`. -/
theorem fetchDecode_of_fetchesOnly {s : State} {o : Opcode} (h : fetchesOnly s o.byte) :
    fetchDecode s = (do
      let _ ← fetchOpcode s
      let op1 ← latchOperand s o.byte 1
      let op2 ← latchOperand s o.byte 2
      fieldsChecked (o.format.registerFields op1 op2) (o.assemble op1 op2)) := by
  cases hir : fetchOpcode s with
  | error r => rw [fetchDecode, hir]; rfl
  | ok ir =>
    obtain ⟨hpc, hget⟩ := fetchOpcode_eq_ok.mp hir
    rw [h hpc ir hget] at hir
    rw [fetchDecode_opcode hir]
    rfl

/-- The fetch and decode of a two-operand opcode go by items 1, 2, 4 and 5 of 60_exceptions.md R153; its lookup, item 3,
passes. -/
theorem fetchDecode_answers_of_two_operands {s : State} {o : Opcode} (h : fetchesOnly s o.byte)
    (htwo : operandCount o.byte = 2) :
    Answers (fetchDecode s)
      (fetchChecks s ++ operandChecks s 1 ++ operandChecks s 2 ++
        (o.format.registerFields (s.fetchByte 1) (s.fetchByte 2)).map fieldCheck)
      (o.assemble (s.fetchByte 1) (s.fetchByte 2)) := by
  have latch {k : Nat} (hk : k ≤ 2) : latchOperand s o.byte k = fetchOperand s k := by
    rw [latchOperand, htwo, if_pos hk]
  rw [fetchDecode_of_fetchesOnly h, latch (by decide), latch (by decide), List.append_assoc, List.append_assoc]
  exact (fetchOpcode_answers s).bind ((fetchOperand_answers s 1).bind ((fetchOperand_answers s 2).bind
    (fieldsChecked_answers _ _)))

/-! ## LDI (41_system_and_data.md R101) -/

/-- LDI commits the write of its immediate to the register that op1 names. -/
theorem commits_ldi {r v : Byte} (s : State) (hw : (Instr.ldi r v).WellFormed) :
    Commits (.ldi r v) s (afterRegisterWrite s r v) := by
  have hr : r.toNat < 8 := of_decide_eq_true hw
  exact ⟨⟨r.toNat, hr⟩, rfl, dif_pos hr⟩

/-- Settles O32: the checks of R101 are those of fetch and decode, and an LDI that is fetched is well-formed, so it
commits. -/
theorem loadImmediateRule : Obligations.LoadImmediateRule := by
  intro s hs hfetch
  exact stepsByChecks_of_answers hs (fetchDecode_answers_of_two_operands (o := .ldi) hfetch rfl)
    fun hf => commits_ldi s (fetchDecode_eq_ok.mp hf).1

end Sys2Proof.Machine
end

section
/-! PROOFS. ADD, MUL and CMP as whole steps (42_alu.md R111 to R113). A step's checks are those of its fetch and then those
of the instruction it fetches; the ALU shape adds the reads of op1 and op2, so each rule is that shape with its result. -/

namespace Sys2Proof.Machine

/-! ## The checks of an execution, after those of the fetch -/

/-- A step from Running goes by the checks of its fetch, and then by those of the instruction it fetches. -/
theorem stepsByChecks_append {s t : State} {i : Instr} {cs ds : List Check} (hs : s.status = .running)
    (h : Answers (fetchDecode s) cs i)
    (hexec : fetchDecode s = .ok i → ∃ x, exec i s = settle s x ∧ Answers x ds t) : stepsByChecks s (cs ++ ds) t := by
  rw [Answers] at h
  rw [stepsByChecks, firstFailing_append]
  cases hcs : firstFailing cs with
  | some c =>
    rw [hcs] at h
    exact step_of_fetchDecode_error hs h
  | none =>
    rw [hcs] at h
    obtain ⟨x, hx, hds⟩ := hexec h
    rw [step_of_fetchDecode_ok hs h, hx, hds, Option.none_or]
    cases firstFailing ds with
    | some c => rfl
    | none => rfl

/-! ## Registers named by operand bytes -/

/-- The value that `regByte k` names is that of register `k`. -/
theorem operandValue_regByte (s : State) (k : Fin 8) : operandValue s (regByte k) = s.regs[k].value := by
  have hk := regByte_toNat k
  rw [operandValue, dif_pos (by omega)]
  simp only [hk, Fin.getElem_fin]

/-- The read check of `regByte k` asks whether register `k` is defined. -/
theorem undefinedCheck_regByte (s : State) (k : Fin 8) :
    undefinedCheck s (regByte k) = ⟨!s.regs[k].defined, .uninitializedRead .register, (k.val : Int)⟩ := by
  have hiff : (∃ i : Fin 8, regByte k = regByte i ∧ s.regs[i].defined = false) ↔ s.regs[k].defined = false := by
    constructor
    · rintro ⟨i, hi, hu⟩
      rwa [eq_of_regByte_toNat (eq_regByte.mp hi.symm)]
    · exact fun hu => ⟨k, rfl, hu⟩
  simp only [undefinedCheck, regByte_toNat, hiff, Bool.decide_eq_false]

/-- The register write through `regByte k` writes register `k` and moves pc. -/
theorem afterRegisterWrite_regByte (s : State) (k : Fin 8) (v : Byte) :
    afterRegisterWrite s (regByte k) v = setPc (writeReg s k v) (s.pc + 3) := by
  have hk := regByte_toNat k
  rw [afterRegisterWrite, dif_pos (by omega)]
  simp only [hk]
  rfl

/-- A register read goes by the register's own check (10_state.md R22). -/
theorem readReg_answers (s : State) (k : Fin 8) :
    Answers (readReg s k) [undefinedCheck s (regByte k)] (operandValue s (regByte k)) := by
  rw [undefinedCheck_regByte, operandValue_regByte]
  cases hd : s.regs[k].defined with
  | false => exact (answers_cons_of_fails rfl).mpr (readReg_eq_error.mpr ⟨hd, rfl⟩)
  | true =>
    rw [answers_cons_of_passes rfl, readReg_eq_ok.mpr (cell_of_defined hd)]
    exact answers_nil

/-- The operand bytes of a well-formed instruction with two register fields are those of two registers. -/
theorem exists_regBytes_of_format {o : Opcode} {a b : Byte} (hformat : o.format = .RR)
    (hw : (o.assemble a b).WellFormed) : ∃ j k : Fin 8, a = regByte j ∧ b = regByte k := by
  have hfields := badField_eq_none.mpr hw
  rw [Opcode.badField, hformat, Format.registerFields, List.find?_eq_none] at hfields
  have named {c : Byte} (hc : c ∈ [a, b]) : ∃ k : Fin 8, c = regByte k :=
    exists_regByte_of_isReg (by simpa [isReg, Nat.lt_succ_iff] using hfields c hc)
  obtain ⟨j, hj⟩ := named (by simp : a ∈ [a, b])
  obtain ⟨k, hk⟩ := named (by simp : b ∈ [a, b])
  exact ⟨j, k, hj, hk⟩

/-! ## The ALU shape (42_alu.md R111 to R113) -/

/-- With two register operands, the ALU shape goes by the checks of its reads, op1 before op2, for an operation the ALU
answers. -/
theorem execAlu_answers {o : Opcode} {op : AluOp} (res : Byte → Byte → AluResult) (hop : ∀ p q, alu op p q = .ok (res p q))
    (s : State) (j k : Fin 8) :
    ∃ x, execAlu o op (regByte j) (regByte k) s = settle s x ∧
      Answers x [undefinedCheck s (regByte j), undefinedCheck s (regByte k)]
        (advance o.byte (aluCommit s j (res (operandValue s (regByte j)) (operandValue s (regByte k))))) := by
  refine ⟨_, rfl, ?_⟩
  simp only [regFields_regByte, ok_bind, hop]
  exact (readReg_answers s j).bind ((readReg_answers s k).bind answers_nil)

/-- A step that fetches an opcode of the ALU shape, whole: fetch, fields and reads are checked in the order of
60_exceptions.md R153, and where none fails the ALU's result is committed. -/
theorem stepsByChecks_alu {o : Opcode} {op : AluOp} {s t : State} (res : Byte → Byte → AluResult)
    (hop : ∀ p q, alu op p q = .ok (res p q)) (hexec : ∀ a b, exec (o.assemble a b) s = execAlu o op a b s)
    (hformat : o.format = .RR) (hs : s.status = .running) (hfetch : fetchesOnly s o.byte)
    (ht : ∀ j, s.fetchByte 1 = regByte j →
      advance o.byte (aluCommit s j (res (operandValue s (s.fetchByte 1)) (operandValue s (s.fetchByte 2)))) = t) :
    stepsByChecks s (fetchChecks s ++ operandChecks s 1 ++ operandChecks s 2 ++
      [fieldCheck (s.fetchByte 1), fieldCheck (s.fetchByte 2),
        undefinedCheck s (s.fetchByte 1), undefinedCheck s (s.fetchByte 2)]) t := by
  have htwo : operandCount o.byte = 2 := by rw [operandCount_byte, hformat]
  have hdecode := fetchDecode_answers_of_two_operands hfetch htwo
  rw [hformat] at hdecode
  have hall := stepsByChecks_append (t := t)
    (ds := [undefinedCheck s (s.fetchByte 1), undefinedCheck s (s.fetchByte 2)]) hs hdecode fun hf => by
      obtain ⟨j, k, hj, hk⟩ := exists_regBytes_of_format hformat (fetchDecode_eq_ok.mp hf).1
      rw [hexec, ← ht j hj, hj, hk]
      exact execAlu_answers res hop s j k
  rwa [List.append_assoc] at hall

/-- Settles O33: ADD is the ALU shape with the sum. -/
theorem addRule : Obligations.AddRule := fun s hs hfetch =>
  stepsByChecks_alu (o := .add) (op := .add) _ (fun _ _ => rfl) (fun _ _ => rfl) rfl hs hfetch fun j hj => by
    rw [hj, afterRegisterWrite_regByte, advance_opcode]
    rfl

/-- Settles O34: MUL is the ALU shape with the product. -/
theorem multiplyRule : Obligations.MultiplyRule := fun s hs hfetch =>
  stepsByChecks_alu (o := .mul) (op := .mul) _ (fun _ _ => rfl) (fun _ _ => rfl) rfl hs hfetch fun j hj => by
    rw [hj, afterRegisterWrite_regByte, advance_opcode]
    rfl

/-- The comparison, by the bytes themselves. -/
theorem compareFlags_eq (p q : Byte) :
    compareFlags p q = if p = q then .equal else if p.toNat > q.toNat then .greater else .less := by
  simp only [compareFlags, BitVec.toNat_inj]

/-- Settles O35: CMP is the ALU shape with the comparison's flags. -/
theorem compareRule : Obligations.CompareRule := fun s hs hfetch =>
  stepsByChecks_alu (o := .cmp) (op := .cmp) _ (fun _ _ => rfl) (fun _ _ => rfl) rfl hs hfetch fun j _ => by
    rw [advance_opcode, ← compareFlags_eq]
    rfl

end Sys2Proof.Machine
end

section
/-! PROOFS. JMP as a whole step (44_control_transfer.md R132): the fetch of an opcode with one register operand goes by its
checks, and the read of that register adds the last one. -/

namespace Sys2Proof.Machine

/-- The fetch and decode of an opcode whose one operand is a register go by items 1, 2, 4 and 5 of 60_exceptions.md R153;
its lookup, item 3, passes, and no second operand is fetched. -/
theorem fetchDecode_answers_of_register_operand {s : State} {o : Opcode} (h : fetchesOnly s o.byte)
    (hformat : o.format = .R) :
    Answers (fetchDecode s) (fetchChecks s ++ operandChecks s 1 ++ [fieldCheck (s.fetchByte 1)])
      (o.assemble (s.fetchByte 1) 0) := by
  have hone : operandCount o.byte = 1 := by rw [operandCount_byte, hformat]
  have latch_one : latchOperand s o.byte 1 = fetchOperand s 1 := by rw [latchOperand, hone, if_pos (by decide)]
  have latch_two : latchOperand s o.byte 2 = .ok 0 := by rw [latchOperand, hone, if_neg (by decide)]
  rw [fetchDecode_of_fetchesOnly h, latch_one, latch_two, hformat, List.append_assoc]
  exact (fetchOpcode_answers s).bind ((fetchOperand_answers s 1).bind (fieldsChecked_answers [s.fetchByte 1] _))

/-- Where its operand byte names a register, JMP goes by the check of its read, and that register is pc: bit C is 1, so
nothing is added to it (40_execution_cycle.md R85). -/
theorem execJmp_answers {b : Byte} (s : State) (hb : isReg b = true) :
    ∃ x, exec (.jmp b) s = settle s x ∧
      Answers x [undefinedCheck s b] { s with pc := (operandValue s b).toNat } := by
  obtain ⟨k, rfl⟩ := exists_regByte_of_isReg hb
  refine ⟨_, rfl, ?_⟩
  simp only [regField_regByte, ok_bind, advance_opcode]
  exact (readReg_answers s k).bind answers_nil

/-- Settles O36: a JMP that is fetched is well-formed, so its operand byte names a register, and the read of that register
is its only further check. -/
theorem jumpRule : Obligations.JumpRule := by
  intro s hs hfetch
  have hdecode := fetchDecode_answers_of_register_operand (o := .jmp) hfetch rfl
  have hall := stepsByChecks_append hs hdecode fun hf => execJmp_answers s (fetchDecode_eq_ok.mp hf).1
  rwa [List.append_assoc] at hall

end Sys2Proof.Machine
end

section
/-! PROOFS. Decoding is the inverse of encoding (30_encoding.md R60 to R70), so an instruction's encoding at pc is
what a step runs (40_execution_cycle.md R88). -/

namespace Sys2Proof

/-- An instruction is assembled from its opcode and its operand bytes, whatever bytes follow them. -/
theorem assemble_operands_append (i : Instr) (rest : List Byte) :
    i.opcode.assemble ((i.operands ++ rest).getD 0 0) ((i.operands ++ rest).getD 1 0) = i := by
  cases i <;> rfl

/-- The operand bytes of an assembled instruction are the first AA bytes of the list it is assembled from. -/
theorem operands_assemble (o : Opcode) {l : List Byte} (h : operandCount o.byte ≤ l.length) :
    (o.assemble (l.getD 0 0) (l.getD 1 0)).operands = l.take (operandCount o.byte) := by
  rw [operandCount_byte] at h ⊢
  match l, h with
  | [], h => cases o <;> simp [Opcode.format] at h <;> rfl
  | [a], h => cases o <;> simp [Opcode.format] at h <;> rfl
  | a :: b :: rest, _ => cases o <;> rfl

/-- On the encoding of an instruction, the decoder checks its fields and leaves what follows (30_encoding.md R69,
R70). -/
theorem decode_encode_append (i : Instr) (rest : List Byte) :
    decode (encode i ++ rest) =
      (decodeInstr i.opcode.byte ((i.operands ++ rest).getD 0 0) ((i.operands ++ rest).getD 1 0)).map (·, rest) := by
  have hlen : ¬ (i.operands ++ rest).length < operandCount i.opcode.byte := by
    rw [List.length_append, operands_length]; omega
  have hdrop : (i.operands ++ rest).drop (operandCount i.opcode.byte) = rest := List.drop_left' (operands_length i)
  rw [encode, List.cons_append, decode]
  simp only [lookup_byte, if_neg hlen, hdrop]
  cases decodeInstr i.opcode.byte ((i.operands ++ rest).getD 0 0) ((i.operands ++ rest).getD 1 0) <;> rfl

/-- The decoder accepts exactly the encodings of well-formed instructions, followed by any bytes. -/
theorem decode_eq_ok {bs rest : List Byte} {i : Instr} :
    decode bs = .ok (i, rest) ↔ i.WellFormed ∧ bs = encode i ++ rest := by
  constructor
  · intro h
    cases bs with
    | nil => exact absurd h (by simp [decode])
    | cons ir l =>
      obtain ⟨rfl, hlen⟩ := decode_cons_rest h
      rw [decode] at h
      split at h
      · exact absurd h (by simp)
      · rw [if_neg (Nat.not_lt.mpr hlen)] at h
        split at h
        · exact absurd h (by simp)
        · next j hj =>
          obtain rfl : j = i := by simpa using h
          obtain ⟨o, rfl, rfl, hw⟩ := decodeInstr_eq_ok.mp hj
          refine ⟨hw, ?_⟩
          rw [encode, opcode_assemble, operands_assemble o hlen, List.cons_append, List.take_append_drop]
  · rintro ⟨hw, rfl⟩
    have hok := decodeInstr_eq_ok.mpr ⟨i.opcode, rfl, (assemble_operands_append i rest).symm, hw⟩
    rw [decode_encode_append, hok]
    rfl

/-- Settles O9: the direction of `decode_eq_ok` from the encoding. -/
theorem decodeOfEncode : Obligations.DecodeOfEncode :=
  fun _ _ hw => decode_eq_ok.mpr ⟨hw, rfl⟩

/-- Settles O10: the direction of `decode_eq_ok` from the decoder. -/
theorem decodedBytesAreTheEncoding : Obligations.DecodedBytesAreTheEncoding :=
  fun _ _ _ h => decode_eq_ok.mp h

/-- Settles O11: each word is the encoding of its instruction, whose fields name registers. -/
theorem wordsFromTheTable : Obligations.WordsFromTheTable := by
  refine ⟨?_, ?_, ?_, ?_, ?_, ?_⟩ <;> exact decode_eq_ok.mpr ⟨by decide, rfl⟩

/-- Settles O13: the fields of 13 closed bytes. -/
theorem opcodeFieldsAgreeWithTable : Obligations.OpcodeFieldsAgreeWithTable := by
  unfold Obligations.OpcodeFieldsAgreeWithTable
  decide

namespace Machine

/-- Where a list of bytes stands at pc, so does every list it begins with. -/
theorem bytesAtPc_of_append {s : State} {bs rest : List Byte} (h : s.bytesAtPc (bs ++ rest)) : s.bytesAtPc bs := by
  intro k hk
  have hget := h k (by rw [List.length_append]; omega)
  rwa [List.getElem_append_left hk] at hget

/-- From Running, a step executes the well-formed instruction whose encoding stands at pc. -/
theorem step_eq_exec {s : State} {i : Instr} (hs : s.status = .running) (hw : i.WellFormed)
    (hb : s.bytesAtPc (encode i)) : step s = exec i s :=
  step_of_fetchDecode_ok hs (fetchDecode_eq_ok.mpr ⟨hw, hb⟩)

/-- Settles O17: the bytes begin with the encoding of what they decode to. -/
theorem stepRunsDecodedInstruction : Obligations.StepRunsDecodedInstruction := by
  intro s bs rest i hs hbytes hdecode
  obtain ⟨hw, rfl⟩ := decode_eq_ok.mp hdecode
  exact step_eq_exec hs hw (bytesAtPc_of_append hbytes)

/-- Settles O21: HLT is one byte, so its encoding stands at 255 too, and it commits pc + 1 and Halted. -/
theorem haltStep : Obligations.HaltStep := by
  intro s hs hpc hget
  rw [step_eq_exec (i := .hlt) hs rfl (bytesAtPc_one.mpr ⟨hpc, hget⟩)]
  exact exec_of_commits rfl

/-! ## Operand bytes that name no register (30_encoding.md R64) -/

/-- The first operand byte of every instruction that has one is a register field, checked before anything else. -/
theorem raises_of_first_operand {i : Instr} {b : Byte} (s : State) (ho : i.operands.head? = some b)
    (hb : 8 ≤ b.toNat) : Raises i s (raiseRegisterIndex b) := by
  cases i with
  | hlt | ret => exact absurd ho (by simp [Instr.operands])
  | ldi r v =>
    obtain rfl : r = b := by simpa [Instr.operands] using ho
    exact ⟨hb, rfl⟩
  | prn r | push r | pop r | call r | jmp r | jeq r | jne r | mul r _ | add r _ | cmp r _ =>
    obtain rfl : r = b := by simpa [Instr.operands] using ho
    exact .inl ⟨hb, rfl⟩

/-- The decoder's field check names the first operand byte too. -/
theorem decode_of_first_operand {i : Instr} {b : Byte} (ho : i.operands.head? = some b) (hb : 8 ≤ b.toNat) :
    decode (encode i) = .error (.registerIndex b) := by
  have hbad : i.opcode.badField ((i.operands ++ []).getD 0 0) ((i.operands ++ []).getD 1 0) = some b := by
    rw [badField_eq_some]
    cases i with
    | hlt | ret => exact absurd ho (by simp [Instr.operands])
    | prn r | push r | pop r | call r | jmp r | jeq r | jne r | ldi r _ =>
      obtain rfl : r = b := by simpa [Instr.operands] using ho
      exact ⟨hb, rfl⟩
    | mul r _ | add r _ | cmp r _ =>
      obtain rfl : r = b := by simpa [Instr.operands] using ho
      exact .inl ⟨hb, rfl⟩
  have herr := decode_encode_append i []
  simp only [List.append_nil, decodeInstr, lookup_byte] at herr hbad
  rw [herr, hbad]
  rfl

/-- Settles O16: op1 is the first operand byte of each instruction listed; op2 of ADD, MUL and CMP is checked next. -/
theorem registerFieldOutOfRange : Obligations.RegisterFieldOutOfRange := by
  intro s b c hb
  have first : ∀ i ∈ [Instr.prn b, .push b, .pop b, .call b, .jmp b, .jeq b, .jne b, .ldi b c, .add b c, .mul b c,
      .cmp b c], i.operands.head? = some b := by
    simp [Instr.operands]
  refine ⟨fun i hi => exec_of_raises (raises_of_first_operand s (first i hi) hb), fun hc i hi => ?_,
    fun i hi => decode_of_first_operand (first i hi) hb⟩
  have second : RaisesRead2 c b s (raiseRegisterIndex b) := .inr (.inl ⟨hc, hb, rfl⟩)
  simp only [List.mem_cons, List.not_mem_nil, or_false] at hi
  obtain rfl | rfl | rfl := hi <;> exact exec_of_raises (e := raiseRegisterIndex b) second

end Machine
end Sys2Proof
end

section
/-! PROOFS. What a step can raise, said once with the reason for each fault (60_exceptions.md R150, R153), and what
every step keeps: the invariant, the registers that are defined, the state but for its status where it faults. -/

namespace Sys2Proof.Machine

/-! ## Why a step faults -/

/-- The faults of a step: those of its fetch, and those of the instruction it fetches. -/
def StepRaises (s : State) (e : Raise) : Prop :=
  fetchDecode s = .error e ∨ ∃ i : Instr, i.WellFormed ∧ s.bytesAtPc (encode i) ∧ Raises i s e

/-- A step commits the instruction at pc, or takes one of its faults (`step_cases`, with the reason of the fault). -/
theorem step_commits_or_raises {s t : State} (h : step s = .next t) :
    (∃ i : Instr, i.WellFormed ∧ s.bytesAtPc (encode i) ∧ Commits i s t) ∨ ∃ e, StepRaises s e ∧ t = takeFault s e := by
  obtain ⟨-, ⟨i, hw, hb, he⟩ | ⟨e, hf, rfl⟩⟩ := step_next.mp h
  · obtain hc | ⟨e, hr, rfl⟩ := (exec_next i s t).mp he
    · exact .inl ⟨i, hw, hb, hc⟩
    · exact .inr ⟨e, .inr ⟨i, hw, hb, hr⟩, rfl⟩
  · exact .inr ⟨e, .inl hf, rfl⟩

/-- A fault of a step, by the rows of 60_exceptions.md R150: what is raised and what was found. -/
inductive Cause (s : State) : Raise → Prop
  | fetchAddress : 255 < s.pc → Cause s (raiseFetchAddress s.pc)
  | operandAddress (k : Nat) : k ≤ 2 → s.pc ≤ 255 → 255 < s.pc + k → Cause s (raiseOperandAddress (s.pc + k))
  | registerIndex (v : Byte) : 8 ≤ v.toNat → Cause s (raiseRegisterIndex v)
  | stackEmpty : Cause s (raiseStackPointer (-1))
  | stackFull : Cause s (raiseStackPointer 256)
  | returnAddress : s.pc = 254 → Cause s (raiseReturnAddress (s.pc + 2))
  | unknownOpcode (ir : Byte) : lookup ir = none → Cause s (raiseUnknownOpcode ir)
  | uninitRegister (k : Fin 8) : s.regs[k].defined = false → Cause s (raiseUninitRegister k)
  | uninitMemory (a : Nat) : a ≤ 255 → Cause s ⟨.uninitializedRead .memory, (a : Int)⟩

/-- A fault of the fetch has its cause in 60_exceptions.md R153 items 1 to 5. -/
theorem cause_of_fetchDecode {s : State} {e : Raise} (h : fetchDecode s = .error e) : Cause s e := by
  obtain ⟨hpc, rfl⟩ | ⟨k, hk, -, rfl⟩ | ⟨ir, -, -, hl, rfl⟩ | ⟨k, hk, hpc, hout, rfl⟩ | ⟨v, hv, rfl⟩ :=
    fetchDecode_error h
  · exact .fetchAddress hpc
  · exact .uninitMemory _ hk
  · exact .unknownOpcode ir hl
  · exact .operandAddress k (by omega) hpc hout
  · exact .registerIndex v hv

/-- A fault of an instruction at pc has its cause in the checks of its rule; the operand byte of CALL is inside
memory, so its pc is at most 254. -/
theorem cause_of_raises {i : Instr} {s : State} {e : Raise} (hb : s.bytesAtPc (encode i)) (h : Raises i s e) :
    Cause s e := by
  obtain ⟨r, hr, rfl⟩ | ⟨k, hk, rfl⟩ | ⟨b, -, rfl⟩ | rfl | rfl | ⟨hcall, hpc, rfl⟩ := h.cause
  · exact .registerIndex r hr
  · exact .uninitRegister k hk
  · exact .uninitMemory b.toNat (Nat.le_of_lt_succ b.isLt)
  · exact .stackEmpty
  · exact .stackFull
  · have hlen : (encode i).length = 2 := by rw [encode, List.length_cons, operands_length, hcall]; rfl
    have := bytesAtPc_length hb
    exact .returnAddress (by omega)

/-- Every fault of a step has its cause. -/
theorem StepRaises.cause {s : State} {e : Raise} (h : StepRaises s e) : Cause s e := by
  obtain hf | ⟨i, -, hb, hr⟩ := h
  · exact cause_of_fetchDecode hf
  · exact cause_of_raises hb hr

/-- The record of a fault is one the table allows, where pc is in range and R7 is defined (60_exceptions.md R150). -/
theorem Cause.legal {s : State} {e : Raise} (h : Cause s e) (hpc : s.pc ≤ 258)
    (hsp : s.regs[Config.spIndex].defined = true) : (FaultRecord.mk e.kind s.pc e.info).Legal := by
  cases h with
  | fetchAddress h => exact ⟨by simp only [raiseFetchAddress]; omega, by simp only [raiseFetchAddress]; omega, rfl⟩
  | operandAddress k hk h h' =>
    have : s.pc + k = 256 ∨ s.pc + k = 257 := by omega
    simp only [FaultRecord.Legal, raiseOperandAddress]
    omega
  | registerIndex v hv =>
    have := v.isLt
    simp only [FaultRecord.Legal, raiseRegisterIndex]
    omega
  | stackEmpty => exact .inl rfl
  | stackFull => exact .inr rfl
  | returnAddress h =>
    simp only [FaultRecord.Legal, raiseReturnAddress]
    omega
  | unknownOpcode ir hl => exact ⟨ir, rfl, hl⟩
  | uninitRegister k hk =>
    have h7 : k ≠ 7 := by
      rintro rfl
      exact Bool.noConfusion (hk.symm.trans hsp)
    simp only [FaultRecord.Legal, raiseUninitRegister]
    omega
  | uninitMemory a ha =>
    simp only [FaultRecord.Legal]
    omega

/-- A step that ends Faulted has taken one of its faults, and the record is that of the fault, at the pc
(40_execution_cycle.md R87). -/
theorem step_faulted {s t : State} {r : FaultRecord} (h : step s = .next t) (hr : t.status = .faulted r) :
    ∃ e, StepRaises s e ∧ t = takeFault s e ∧ r = ⟨e.kind, s.pc, e.info⟩ := by
  obtain ⟨i, -, -, hc⟩ | ⟨e, he, rfl⟩ := step_commits_or_raises h
  · have hrun := (step_next.mp h).1
    have hst := hc.status
    rw [hr, hrun] at hst
    split at hst <;> exact absurd hst (by simp)
  · exact ⟨e, he, rfl, by simpa [eq_comm] using hr⟩

/-- Settles O60: UnsupportedOperation is the cause of no fault of a step. -/
theorem noUnsupportedOperation : Obligations.NoUnsupportedOperation := by
  intro s t r hstep hr
  obtain ⟨e, he, -, rfl⟩ := step_faulted hstep hr
  cases he.cause <;> exact fun h => nomatch h

/-- Settles O20: `takeFault` sets the status, with the pc in the record, and touches nothing else. -/
theorem faultIsPrecise : Obligations.FaultIsPrecise := by
  intro s t r hstep hr
  obtain ⟨e, -, rfl, rfl⟩ := step_faulted hstep hr
  exact ⟨rfl, rfl⟩

/-- Settles O27: a commit keeps the status Running, or is HLT's; a fault sets it to Faulted. -/
theorem statusWriters : Obligations.StatusWriters := by
  intro s t hstep
  obtain ⟨hrun, ⟨i, -, hb, hc, -⟩ | ⟨e, rfl⟩⟩ := step_cases hstep
  · have hst := hc.status
    split at hst
    · next hi => exact .inr (.inl ⟨hst, by rw [fetchByte_zero hb, hi]; rfl⟩)
    · exact .inl (hst.trans hrun)
  · exact .inr (.inr (takeFault_isFaulted s e))

/-! ## Defined registers stay defined (10_state.md R22) -/

/-- A commit undefines no register: whatever it writes to a register is a defined byte. -/
theorem Commits.defined {i : Instr} {s t : State} (h : Commits i s t) (j : Fin 8) (hj : s.regs[j].defined = true) :
    t.regs[j].defined = true := by
  cases i <;> simp only [Commits] at h
  case hlt => subst h; exact hj
  case ldi => obtain ⟨k, _, rfl⟩ := h; exact set_defined k.isLt _ hj
  case push => obtain ⟨_, _, _, _, _, _, _, rfl⟩ := h; exact set_defined (by decide) _ hj
  case call => obtain ⟨_, _, _, _, _, _, _, _, rfl⟩ := h; exact set_defined (by decide) _ hj
  case ret => obtain ⟨_, _, _, _, _, rfl⟩ := h; exact set_defined (by decide) _ hj
  case pop =>
    obtain ⟨k, _, _, _, _, _, ⟨_, _, rfl⟩ | ⟨_, _, rfl⟩⟩ := h
    · exact set_defined (by decide) _ hj
    · exact set_defined (by decide) _ (set_defined k.isLt _ hj)
  case add | mul => obtain ⟨k, _, _, _, _, _, _, _, rfl⟩ := h; exact set_defined k.isLt _ hj
  case cmp => obtain ⟨_, _, _, _, _, _, _, _, rfl⟩ := h; exact hj
  case prn | jmp | jeq | jne => obtain ⟨_, _, _, _, rfl⟩ := h; exact hj

/-- Settles O7: a commit undefines no register, and a fault changes none. -/
theorem definedStaysDefined : Obligations.DefinedStaysDefined := by
  intro s t j hstep hj
  obtain ⟨-, ⟨i, -, -, hc, -⟩ | ⟨e, rfl⟩⟩ := step_cases hstep
  · exact hc.defined j hj
  · exact hj

/-! ## The invariant -/

/-- A commit of the instruction at pc leaves pc in 0..256: past the instruction, which ends inside memory, or at a byte
(10_state.md R24). -/
theorem Commits.pc_le {i : Instr} {s t : State} (h : Commits i s t) (hb : s.bytesAtPc (encode i)) : t.pc ≤ 256 := by
  have hend := bytesAtPc_length hb
  have byte_le (v : Byte) : v.toNat ≤ 256 := by have := v.isLt; omega
  have ite_le {c : Bool} {a b : Nat} (ha : a ≤ 256) (hb : b ≤ 256) : (if c then a else b) ≤ 256 := by
    split <;> assumption
  cases hc : setsPc i.opcode.byte with
  | false =>
    rw [h.pc_of_not_setsPc hc, ← operands_length]
    rw [encode, List.length_cons] at hend
    omega
  | true =>
    cases i <;> simp only [Commits] at h
    case hlt | ldi | prn | mul | add | push | pop | cmp => exact absurd hc (by simp only [Instr.opcode]; decide)
    case ret => obtain ⟨_, v, _, _, _, rfl⟩ := h; exact byte_le v
    case call => obtain ⟨_, _, v, _, _, _, _, _, rfl⟩ := h; exact byte_le v
    case jmp => obtain ⟨_, v, _, _, rfl⟩ := h; exact byte_le v
    case jeq =>
      obtain ⟨_, v, _, _, rfl⟩ := h
      exact ite_le (byte_le v) hend
    case jne =>
      obtain ⟨_, v, _, _, rfl⟩ := h
      exact ite_le hend (byte_le v)

/-- A commit keeps memory canonical: it writes at most one byte, at SP - 1 (20_memory.md R40 to R43). -/
theorem Commits.mem_wf {i : Instr} {s t : State} (h : Commits i s t) (hs : s.mem.wf = true) : t.mem.wf = true := by
  obtain hmem | ⟨-, sp, v, -, -, hmem⟩ := h.mem
  · rwa [hmem]
  · have hsp : sp.toNat - 1 < Config.memSize := by have := sp.isLt; rw [Config.memSize]; omega
    rw [hmem]
    exact Memory.set_wf v hs hsp

/-- Settles O5: a commit keeps each field of the invariant and leaves no record; a fault changes only the status, and
its record is legal by its cause. -/
theorem stepKeepsInvariant : Obligations.StepKeepsInvariant := by
  intro s t hinv hstep
  have record_legal (r : FaultRecord) (hr : t.status = .faulted r) : r.Legal ∧ r.pc = t.pc := by
    obtain ⟨e, he, rfl, rfl⟩ := step_faulted hstep hr
    exact ⟨he.cause.legal hinv.pc_le hinv.sp_defined, rfl⟩
  obtain ⟨-, ⟨i, -, hb, hc, -⟩ | ⟨e, rfl⟩⟩ := step_cases hstep
  · exact ⟨hc.mem_wf hinv.mem_wf, (hc.pc_le hb).trans (by decide), hc.defined _ hinv.sp_defined, record_legal⟩
  · exact ⟨hinv.mem_wf, hinv.pc_le, hinv.sp_defined, record_legal⟩

end Sys2Proof.Machine
end

section
/-! PROOFS. Reset, launch and runs (10_state.md R34, 70_reset_and_hazards.md R180 to R185): what holds at reset and is
kept by every step holds of every state a run reaches. -/

namespace Sys2Proof.Machine

/-! ## Reset and launch -/

/-- A launch that is not refused places the image and changes nothing else (70_reset_and_hazards.md R182). -/
theorem launch_eq_ok {s t : State} {image : List Byte} :
    launch s image = .ok t ↔ image.length ≤ 256 ∧ t = { s with mem := Memory.place s.mem 0 image } := by
  unfold launch
  split
  · next h => simp only [reduceCtorEq, false_iff, not_and]; exact fun hle => absurd h (Nat.not_lt.mpr hle)
  · next h => simp only [Except.ok.injEq, eq_comm (b := t)]; exact ⟨fun e => ⟨Nat.le_of_not_lt h, e⟩, fun e => e.2⟩

/-- Settles O1: the fields of a closed state. -/
theorem resetState : Obligations.ResetState :=
  ⟨rfl, rfl, rfl, rfl, rfl, fun _ => rfl, by decide⟩

/-- Settles O2: what memory reads as after a placing (`Memory.get_place`), and the fields of the spec's reset. -/
theorem launchFromSpecReset : Obligations.LaunchFromSpecReset := by
  intro image
  have hundefined : ∀ i : Fin 8, i ≠ 7 → State.resetUndefined.regs[i].defined = false := by decide
  refine ⟨fun hlen => ⟨_, launch_eq_ok.mpr ⟨hlen, rfl⟩, fun a ha => ?_, fun a ha => ?_, hundefined, rfl, rfl, rfl,
    rfl, rfl⟩, fun hlen t ht => absurd (launch_eq_ok.mp ht).1 (Nat.not_le.mpr hlen)⟩
  · have hin : 0 ≤ a ∧ a < 0 + image.length := by omega
    rw [Memory.get_place image _ 0 a (by rw [Config.memSize]; omega), if_pos hin]
    exact List.getElem?_eq_getElem ha
  · have hout : ¬ (0 ≤ a ∧ a < 0 + image.length) := by omega
    rw [Memory.get_place image _ 0 a (by rw [Config.memSize]; omega), if_neg hout]
    rfl

/-- Settles O3: both resets have an empty memory, pc 0, R7 defined and no record. -/
theorem resetMeetsInvariant : Obligations.ResetMeetsInvariant :=
  ⟨⟨rfl, by decide, rfl, fun _ h => nomatch h⟩, ⟨rfl, by decide, rfl, fun _ h => nomatch h⟩⟩

/-- Settles O4: a placing keeps memory canonical, and a launch changes nothing else. -/
theorem launchKeepsInvariant : Obligations.LaunchKeepsInvariant := by
  intro s image t hinv hl
  obtain ⟨-, rfl⟩ := launch_eq_ok.mp hl
  exact ⟨Memory.place_wf image _ 0 hinv.mem_wf, hinv.pc_le, hinv.sp_defined, hinv.record_legal⟩

/-! ## Runs -/

/-- What every step keeps holds of every state reached from one where it holds. -/
theorem invariant_of_reaches {P : State → Prop} (hstep : ∀ s t, P s → step s = .next t → P t) {s t : State}
    (h : Reaches s t) (hs : P s) : P t := by
  induction h with
  | refl s => exact hs
  | step hst _ ih => exact ih (hstep _ _ hs hst)

/-- All registers are defined, and no read of one has faulted. -/
def State.readsDefined (s : State) : Prop :=
  s.allDefined ∧ ∀ r, s.status = .faulted r → r.kind ≠ .uninitializedRead .register

/-- Where all registers are defined, no step reads an undefined one. -/
theorem step_keeps_readsDefined (s t : State) (hs : s.readsDefined) (hstep : step s = .next t) : t.readsDefined := by
  refine ⟨fun j => definedStaysDefined s t j hstep (hs.1 j), fun r hr => ?_⟩
  obtain ⟨e, he, -, rfl⟩ := step_faulted hstep hr
  cases he.cause with
  | uninitRegister k hk => exact Bool.noConfusion (hk.symm.trans (hs.1 k))
  | _ => exact fun h => nomatch h

/-- Settles O6: `State.reset` defines every register, a launch changes none, and every step keeps
`State.readsDefined`. -/
theorem noUndefinedRegisterFromReset : Obligations.NoUndefinedRegisterFromReset := by
  intro image s t hl hreach
  obtain ⟨-, rfl⟩ := launch_eq_ok.mp hl
  have hdefined : State.reset.allDefined := by unfold State.allDefined; decide
  exact invariant_of_reaches step_keeps_readsDefined hreach ⟨hdefined, fun _ h => nomatch h⟩

/-- From a terminal status no step is enabled, so only the state itself is reached (40_execution_cycle.md R80). -/
theorem Reaches.eq_of_terminal {s t : State} (h : Reaches s t) (hs : s.status ≠ .running) : t = s := by
  cases h with
  | refl => rfl
  | step hst _ => exact absurd (step_next.mp hst).1 hs

/-- Settles O8: two runs from a state take the same steps, until one ends, where the other can take none. -/
theorem runHasAtMostOneEnd : Obligations.RunHasAtMostOneEnd := by
  rintro s t u ⟨ht, htend⟩ ⟨hu, huend⟩
  induction ht with
  | refl s => exact (hu.eq_of_terminal htend).symm
  | step hst _ ih =>
    cases hu with
    | refl => exact absurd (step_next.mp hst).1 huend
    | step hst' hu' =>
      obtain rfl := Host.Outcome.next.inj (hst.symm.trans hst')
      exact ih htend hu'

end Sys2Proof.Machine
end

section
/-! PROOFS. Each instruction's effect where it completes, and the fault where it does not (41 R100 to R102, 42 R110 to
R114, 43 R120 and R121, 44 R130 to R134), for operand bytes that name registers. -/

namespace Sys2Proof.Machine

/-! ## Completed -/

/-- Settles O37: HLT commits its one state. -/
theorem haltResult : Obligations.HaltResult := fun _ => exec_of_commits rfl

/-- Settles O38: LDI commits its byte to the register that op1 names. -/
theorem loadImmediateResult : Obligations.LoadImmediateResult :=
  fun _ i _ => exec_of_commits ⟨i, regByte_toNat i, rfl⟩

/-- Settles O39: PRN of a defined register commits its byte to the output. -/
theorem printResult : Obligations.PrintResult :=
  fun _ i v hv => exec_of_commits ⟨i, v, regByte_toNat i, hv, rfl⟩

/-- Settles O40: ADD of two defined registers commits the sum. -/
theorem addResult : Obligations.AddResult :=
  fun _ i j p q hp hq => exec_of_commits ⟨i, j, p, q, regByte_toNat i, regByte_toNat j, hp, hq, rfl⟩

/-- Settles O41: MUL of two defined registers commits the product. -/
theorem multiplyResult : Obligations.MultiplyResult :=
  fun _ i j p q hp hq => exec_of_commits ⟨i, j, p, q, regByte_toNat i, regByte_toNat j, hp, hq, rfl⟩

/-- Settles O42: CMP of two defined registers commits the comparison. -/
theorem compareResult : Obligations.CompareResult :=
  fun _ i j p q hp hq => exec_of_commits ⟨i, j, p, q, regByte_toNat i, regByte_toNat j, hp, hq, rfl⟩

/-- What a push of a defined register finds after SP has become `sp'`: the new SP for R7, else the register
(43_stack.md R120). -/
theorem read_after_push {s : State} {i : Fin 8} {v : Byte} (sp' : Byte) (hv : s.regs[i] = ⟨v, true⟩) :
    (i = 7 ∧ (if i = 7 then sp' else v) = sp') ∨ (i ≠ 7 ∧ s.regs[i] = ⟨if i = 7 then sp' else v, true⟩) := by
  by_cases h7 : i = 7
  · exact .inl ⟨h7, if_pos h7⟩
  · exact .inr ⟨h7, by rw [if_neg h7, hv]⟩

/-- Settles O43: PUSH commits what it finds after SP is decremented. -/
theorem pushResult : Obligations.PushResult :=
  fun _ i _ sp hsp h0 hv => exec_of_commits ⟨i, sp, _, regByte_toNat i, hsp, h0, read_after_push _ hv, rfl⟩

/-- Settles O44: POP commits the byte at SP, and one more than the popped value for R7, than SP otherwise. -/
theorem popResult : Obligations.PopResult := by
  intro s i v sp hsp hv hle
  by_cases h7 : i = 7
  · rw [if_pos h7] at hle ⊢
    exact exec_of_commits ⟨i, sp, v, regByte_toNat i, hsp, hv, .inl ⟨h7, Nat.le_of_succ_le_succ hle, rfl⟩⟩
  · rw [if_neg h7] at hle ⊢
    exact exec_of_commits ⟨i, sp, v, regByte_toNat i, hsp, hv, .inr ⟨h7, Nat.le_of_succ_le_succ hle, rfl⟩⟩

/-- Settles O45: CALL commits the return address and goes to what it finds after SP is decremented. -/
theorem callResult : Obligations.CallResult := by
  intro s i t sp hpc hsp h0 ht
  have htarget : (if i = 7 then BitVec.ofNat 8 (sp.toNat - 1) else t).toNat =
      if i = 7 then sp.toNat - 1 else t.toNat := by
    rw [apply_ite BitVec.toNat, sub_one_toNat]
  rw [← htarget]
  exact exec_of_commits ⟨i, sp, _, regByte_toNat i, hpc, hsp, h0, read_after_push _ ht, rfl⟩

/-- Settles O46: RET commits the byte at SP as pc. -/
theorem returnResult : Obligations.ReturnResult :=
  fun _ v sp hsp hv hle => exec_of_commits ⟨sp, v, hsp, hv, hle, rfl⟩

/-- Settles O47: the three jumps commit the register, or pc + 2 where the flag says so. -/
theorem jumpResults : Obligations.JumpResults := by
  intro s i t ht
  simp only [← isEqual_iff]
  exact ⟨exec_of_commits ⟨i, t, regByte_toNat i, ht, rfl⟩, exec_of_commits ⟨i, t, regByte_toNat i, ht, rfl⟩,
    exec_of_commits ⟨i, t, regByte_toNat i, ht, rfl⟩⟩

/-! ## Faulted -/

/-- An instruction that raises takes the fault of that kind and info. -/
theorem exec_faultedWith {i : Instr} {s : State} {k : FaultKind} {n : Int} (h : Raises i s ⟨k, n⟩) :
    exec i s = .next (s.faultedWith k n) := exec_of_raises h

/-- CALL raises what its push raises, once the return address is a byte. -/
theorem raises_call_of_push {s : State} {i : Fin 8} {e : Raise} (hpc : s.pc ≤ 253) (h : RaisesPush i s e) :
    Raises (.call (regByte i)) s e := .inr ⟨i, regByte_toNat i, .inr ⟨hpc, h⟩⟩

/-- PUSH raises what its push raises. -/
theorem raises_push_of_push {s : State} {i : Fin 8} {e : Raise} (h : RaisesPush i s e) :
    Raises (.push (regByte i)) s e := .inr ⟨i, regByte_toNat i, h⟩

/-- Settles O48: SP = 0 for a push, pc = 254 for the return address, and a new SP of 256 for a pop. -/
theorem stackLimitFaults : Obligations.StackLimitFaults := by
  intro s i sp hsp
  refine ⟨?_, fun hpc => ?_, fun v hv h255 => ?_, fun v hv h255 => ?_⟩
  · rintro rfl
    have hpush : RaisesPush i s (raiseStackPointer (-1)) := .inr (.inl ⟨hsp, rfl⟩)
    exact ⟨exec_faultedWith (raises_push_of_push hpush), fun hpc => exec_faultedWith (raises_call_of_push hpc hpush)⟩
  · refine exec_faultedWith (.inr ⟨i, regByte_toNat i, .inl ⟨by omega, ?_⟩⟩)
    rw [hpc]
    rfl
  · have h255' : (if i = 7 then v else sp).toNat = 255 := by rw [h255]; rfl
    exact exec_faultedWith (.inr ⟨i, regByte_toNat i, .inr ⟨sp, hsp, .inr ⟨v, hv, h255', rfl⟩⟩⟩)
  · subst h255
    exact exec_faultedWith (.inr ⟨255, hsp, .inr ⟨v, hv, rfl, rfl⟩⟩)

/-- Settles O49: the register is read on every path once the earlier checks pass; a push where R7 is defined reads
another. -/
theorem undefinedReadFaults : Obligations.UndefinedReadFaults := by
  intro s i hi
  have read : RaisesRead (regByte i) s (raiseUninitRegister i) := .inr ⟨i, regByte_toNat i, hi, rfl⟩
  have first (j : Fin 8) : RaisesRead2 (regByte i) (regByte j) s (raiseUninitRegister i) :=
    .inr (.inr ⟨i, j, regByte_toNat i, regByte_toNat j, .inl ⟨hi, rfl⟩⟩)
  have second (j : Fin 8) (hj : s.regs[j].defined = true) :
      RaisesRead2 (regByte j) (regByte i) s (raiseUninitRegister i) :=
    .inr (.inr ⟨j, i, regByte_toNat j, regByte_toNat i, .inr ⟨hj, hi, rfl⟩⟩)
  refine ⟨fun k hk => exec_faultedWith ?_, fun j k hk => exec_faultedWith ?_, fun j hj k hk => exec_faultedWith ?_,
    fun sp hsp h0 => ?_⟩
  · simp only [List.mem_cons, List.not_mem_nil, or_false] at hk
    obtain rfl | rfl | rfl | rfl := hk <;> exact read
  · simp only [List.mem_cons, List.not_mem_nil, or_false] at hk
    obtain rfl | rfl | rfl := hk <;> exact first j
  · simp only [List.mem_cons, List.not_mem_nil, or_false] at hk
    obtain rfl | rfl | rfl := hk <;> exact second j hj
  · have h7 : i ≠ 7 := by
      rintro rfl
      exact Bool.noConfusion (hi.symm.trans (congrArg RegCell.defined hsp))
    have hpush : RaisesPush i s (raiseUninitRegister i) := .inr (.inr ⟨sp, hsp, h0, h7, hi, rfl⟩)
    exact ⟨exec_faultedWith (raises_push_of_push hpush), fun hpc => exec_faultedWith (raises_call_of_push hpc hpush)⟩

/-- Settles O50: POP and RET read the byte at SP before they check the new SP. -/
theorem undefinedStackByteFaults : Obligations.UndefinedStackByteFaults := by
  intro s i sp hsp hnone
  have hpop (base : Byte → Byte → Byte) : RaisesPop base s (raiseUninitMemory sp) := .inr ⟨sp, hsp, .inl ⟨hnone, rfl⟩⟩
  exact ⟨exec_faultedWith (.inr ⟨i, regByte_toNat i, hpop _⟩), exec_faultedWith (hpop _)⟩

/-! ## The ALU -/

/-- Settles O59: `alu` by its request; the comparison is that of the bytes (`compareFlags_eq`). -/
theorem aluLaws : Obligations.AluLaws := by
  intro p q
  have reduced (n : Nat) : (BitVec.ofNat 8 (n % 256)).toNat = n % 256 := by rw [BitVec.toNat_ofNat, Nat.mod_mod]
  exact ⟨⟨_, rfl, reduced _⟩, ⟨_, rfl, reduced _⟩,
    congrArg (fun f => Except.ok (AluResult.flags f)) (compareFlags_eq p q), fun _ => rfl⟩

end Sys2Proof.Machine
end

section
/-! PROOFS. Laws of instruction pairs (43_stack.md R123, 44_control_transfer.md R136 and R137, 20_memory.md R54), from
what each instruction commits. -/

namespace Sys2Proof.Machine

/-! ## The stack (43_stack.md R123) -/

/-- One less and then one more is the byte again. -/
theorem sub_one_add_one {sp : Byte} (h0 : sp.toNat ≠ 0) : BitVec.ofNat 8 (sp.toNat - 1 + 1) = sp := by
  rw [Nat.sub_add_cancel (Nat.one_le_iff_ne_zero.mpr h0), BitVec.ofNat_toNat, BitVec.setWidth_eq]

/-- A write of R7 leaves every other register. -/
theorem set_seven_get_ne {r : Vector RegCell 8} {j : Fin 8} (c : RegCell) (h : j ≠ 7) : (r.set 7 c)[j] = r[j] :=
  set_get_ne (i := 7) c h

/-- A push moves SP down by 1 and writes what it finds there, the register or for R7 the new SP; every other register
and byte stays. -/
theorem exists_push {s : State} {i : Fin 8} {v sp : Byte} (hsp : s.regs[7] = ⟨sp, true⟩) (h0 : sp.toNat ≠ 0)
    (hv : (i = 7 ∧ v = BitVec.ofNat 8 (sp.toNat - 1)) ∨ (i ≠ 7 ∧ s.regs[i] = ⟨v, true⟩)) :
    ∃ t, exec (.push (regByte i)) s = .next t ∧ t.regs[7] = ⟨BitVec.ofNat 8 (sp.toNat - 1), true⟩ ∧
      t.mem = Memory.set s.mem (sp.toNat - 1) v ∧ ∀ j : Fin 8, j ≠ 7 → t.regs[j] = s.regs[j] :=
  ⟨_, exec_of_commits ⟨i, sp, v, regByte_toNat i, hsp, h0, hv, rfl⟩, Vector.getElem_set_self _, rfl,
    fun _ hj => set_seven_get_ne _ hj⟩

/-- A pop to a register 0..6 gives it the byte at SP and moves SP up by 1; every other register and all memory stay. -/
theorem exists_pop {s : State} {i : Fin 8} {v sp : Byte} (hi : i ≠ 7) (h0 : sp.toNat ≠ 0)
    (hsp : s.regs[7] = ⟨BitVec.ofNat 8 (sp.toNat - 1), true⟩) (hv : Memory.get s.mem (sp.toNat - 1) = some v) :
    ∃ t, exec (.pop (regByte i)) s = .next t ∧ t.regs[i] = ⟨v, true⟩ ∧ t.regs[7] = ⟨sp, true⟩ ∧ t.mem = s.mem ∧
      ∀ j : Fin 8, j ≠ 7 → j ≠ i → t.regs[j] = s.regs[j] := by
  have hle : (if i = 7 then v.toNat else (BitVec.ofNat 8 (sp.toNat - 1)).toNat) + 1 ≤ 255 := by
    have := sp.isLt
    rw [if_neg hi, sub_one_toNat]
    omega
  refine ⟨_, popResult s i v _ hsp (by rwa [sub_one_toNat]) hle, ?_, ?_, rfl, fun j h7 hj => ?_⟩
  · rw [if_neg hi]
    exact (set_seven_get_ne _ hi).trans (set_get _ _ _)
  · rw [if_neg hi, Vector.getElem_set_self, sub_one_toNat, sub_one_add_one h0]
  · rw [if_neg hi]
    exact (set_seven_get_ne _ h7).trans (set_get_ne _ hj)

/-- A pop to R7 leaves SP one more than the byte popped (43_stack.md R121). -/
theorem exists_pop_seven {s : State} {v sp : Byte} (hsp : s.regs[7] = ⟨sp, true⟩)
    (hv : Memory.get s.mem sp.toNat = some v) (hle : v.toNat ≤ 254) :
    ∃ t, exec (.pop (regByte 7)) s = .next t ∧ t.regs[7] = ⟨BitVec.ofNat 8 (v.toNat + 1), true⟩ :=
  ⟨_, popResult s 7 v sp hsp hv (Nat.succ_le_succ hle), Vector.getElem_set_self _⟩

/-- Settles O55: the pop finds SP as the push left it, and there the byte that the push wrote, which for R7 is the new
SP. -/
theorem pushThenPop : Obligations.PushThenPop := by
  intro s i j v sp hv hsp h0
  have hsub := sub_one_toNat sp
  obtain ⟨t, ht, ht7, hmem, -⟩ := exists_push hsp h0 (read_after_push _ hv)
  have hget : Memory.get t.mem (sp.toNat - 1) = some (if i = 7 then BitVec.ofNat 8 (sp.toNat - 1) else v) := by
    rw [hmem, Memory.get_set_self]
  refine ⟨t, ht, fun hi hj => ?_, fun hi hj => ?_, fun hi hj => ?_, fun hi hj hle => ?_⟩
  · rw [if_neg hi] at hget
    obtain ⟨u, hu, huj, hu7, hmem, -⟩ := exists_pop hj h0 ht7 hget
    exact ⟨u, hu, huj, hu7, by rw [hmem, hget]⟩
  · rw [if_pos hi] at hget
    have hlt := sp.isLt
    obtain ⟨u, hu, hu7⟩ := exists_pop_seven ht7 (by rwa [hsub]) (by omega)
    exact ⟨u, hj ▸ hu, by rw [hu7, hsub, sub_one_add_one h0]⟩
  · rw [if_pos hi] at hget
    obtain ⟨u, hu, huj, hu7, -⟩ := exists_pop hj h0 ht7 hget
    exact ⟨u, hu, huj, hu7⟩
  · rw [if_neg hi, ← hsub] at hget
    exact hj ▸ exists_pop_seven ht7 hget hle

/-- Settles O56: the second push lands one below the first, and the pops take them back in turn. -/
theorem lastInFirstOut : Obligations.LastInFirstOut := by
  intro s i j k l v w sp hi hj hk hl hkl hv hw hsp h2
  have hsub := sub_one_toNat sp
  have h0 : sp.toNat ≠ 0 := by omega
  have h0' : (BitVec.ofNat 8 (sp.toNat - 1)).toNat ≠ 0 := by omega
  obtain ⟨t, ht, ht7, htmem, htregs⟩ := exists_push hsp h0 (.inr ⟨hi, hv⟩)
  obtain ⟨u, hu, hu7, humem, -⟩ := exists_push ht7 h0' (.inr ⟨hj, (htregs j hj).trans hw⟩)
  obtain ⟨x, hx, hxk, hx7, hxmem, -⟩ := exists_pop hk h0' hu7 (by rw [humem]; exact Memory.get_set_self _ _ _)
  have hget : Memory.get x.mem (sp.toNat - 1) = some v := by
    rw [hxmem, humem, htmem, Memory.get_set_other _ _ (by omega), Memory.get_set_self]
  obtain ⟨y, hy, hyl, hy7, -, hyregs⟩ := exists_pop hl h0 hx7 hget
  exact ⟨t, u, x, y, ht, hu, hx, hy, (hyregs k hk hkl).trans hxk, hyl, hy7⟩

/-! ## CALL and RET, CMP and a branch (44_control_transfer.md R136, R137) -/

/-- Settles O57: the CALL left SP one below what it was, and pc + 2 there; RET takes both back. -/
theorem callThenReturn : Obligations.CallThenReturn := by
  intro s t u r hs hcall ht h7 hmem
  obtain hc | ⟨e, -, rfl⟩ := (exec_next _ _ _).mp hcall
  · obtain ⟨k, sp, v, -, hpc, hsp, h0, -, rfl⟩ := hc
    have hlt := sp.isLt
    have hsub := sub_one_toNat sp
    have hset : (s.regs.set 7 ⟨BitVec.ofNat 8 (sp.toNat - 1), true⟩)[7] = ⟨BitVec.ofNat 8 (sp.toNat - 1), true⟩ :=
      Vector.getElem_set_self _
    rw [hset] at h7 hmem
    have hget : Memory.get u.mem (BitVec.ofNat 8 (sp.toNat - 1)).toNat = some (BitVec.ofNat 8 (s.pc + 2)) := by
      rw [hmem, hsub, Memory.get_set_self]
    have hret : (BitVec.ofNat 8 (s.pc + 2)).toNat = s.pc + 2 := by rw [BitVec.toNat_ofNat]; omega
    rw [returnResult u _ _ h7 hget (by omega), hret, hsub, sub_one_add_one h0, hsp]
  · exact absurd ht (by simp)

/-- Settles O58: the comparison leaves E exactly for equal bytes (`compareFlags_equal`), and E is all a branch reads. -/
theorem branchAfterCompare : Obligations.BranchAfterCompare := by
  intro s u i j k p q a hp hq
  refine ⟨_, compareResult s i j p q hp hq, fun hfl ha => ?_⟩
  have hequal : u.fl = .equal ↔ p = q := by rw [hfl]; exact compareFlags_equal p q
  obtain ⟨-, hjeq, hjne⟩ := jumpResults u k a ha
  simp only [hequal] at hjeq hjne
  exact ⟨hjeq, hjne⟩

/-! ## A write over code (20_memory.md R54) -/

/-- The operand byte of a register passes the field check. -/
theorem isReg_regByte (i : Fin 8) : isReg (regByte i) = true := by
  rw [isReg, regByte_toNat]
  exact decide_eq_true i.isLt

/-- Settles O29: PUSH writes the byte that the next step fetches; CALL has latched its operand before its push lands on
it. -/
theorem writesOverCode : Obligations.WritesOverCode := by
  refine ⟨fun s i sp hi hs hb hv hsp hspc => ?_, fun s i v sp hi hs hb hpc hv hsp hspc => ?_⟩
  · have hpush := (step_eq_exec (i := .push (regByte i)) hs (isReg_regByte i) hb).trans
      (pushResult s i _ sp hsp (by omega) hv)
    have hnext : s.pc + 2 = sp.toNat - 1 := by omega
    have hlt := sp.isLt
    refine ⟨_, hpush, haltStep _ hs (by dsimp only; omega) ?_⟩
    rw [if_neg hi]
    dsimp only
    rw [hnext, Memory.get_set_self]
  · have hcall := (step_eq_exec (i := .call (regByte i)) hs (isReg_regByte i) hb).trans
      (callResult s i v sp hpc hsp (by omega) hv)
    have hown : s.pc + 1 = sp.toNat - 1 := by omega
    refine ⟨_, hcall, if_neg hi, ?_⟩
    rw [hown, Memory.get_set_self]

end Sys2Proof.Machine
end

section
/-! PROOFS. What an execution and a step leave unchanged, completed or faulted (10_state.md R21, R26, R29, R32,
20_memory.md R43): field by field, from what a commit writes, for a fault writes only the status. -/

namespace Sys2Proof.Machine

/-! ## An execution, field by field -/

section Exec

variable {i : Instr} {s t : State}

/-- What holds of every commit and of every fault taken holds of every execution. -/
theorem of_exec {P : State → Prop} (h : exec i s = .next t) (hcommit : ∀ t, Commits i s t → P t)
    (hfault : ∀ e, P (takeFault s e)) : P t := by
  obtain hc | ⟨e, -, rfl⟩ := (exec_next i s t).mp h
  · exact hcommit t hc
  · exact hfault e

/-- The opcodes that write the register their first operand names (10_state.md R21). -/
def writesOperand : List Opcode := [.ldi, .add, .mul, .pop]

/-- The opcodes that move the stack pointer (10_state.md R21). -/
def movesSp : List Opcode := [.push, .pop, .call, .ret]

/-- A commit changes a register only as the operand that its opcode writes, or as the stack pointer that it moves. -/
theorem Commits.reg_eq (h : Commits i s t) (j : Fin 8)
    (hd : i.opcode ∈ writesOperand → (i.operands.getD 0 0).toNat ≠ j.val) (h7 : i.opcode ∈ movesSp → j ≠ 7) :
    t.regs[j] = s.regs[j] :=
  h.regs j (fun ho => hd (by simpa [writesOperand] using ho)) fun ho => h7 (by simpa [movesSp] using ho)

/-- An execution changes a register only as the operand that its opcode writes, or as the stack pointer that it moves.
-/
theorem exec_reg (h : exec i s = .next t) (j : Fin 8)
    (hd : i.opcode ∈ writesOperand → (i.operands.getD 0 0).toNat ≠ j.val) (h7 : i.opcode ∈ movesSp → j ≠ 7) :
    t.regs[j] = s.regs[j] :=
  of_exec (P := fun t => t.regs[j] = s.regs[j]) h (fun _ hc => hc.reg_eq j hd h7) fun _ => rfl

/-- Only PUSH and CALL change memory. -/
theorem exec_mem (h : exec i s = .next t) (hi : i.opcode ∉ ([.push, .call] : List Opcode)) : t.mem = s.mem :=
  of_exec (P := fun t => t.mem = s.mem) h
    (fun _ hc => hc.mem.resolve_right fun ⟨ho, _⟩ => hi (by simpa using ho)) fun _ => rfl

/-- No execution changes a byte that is not at the address a push computes. -/
theorem exec_mem_get (h : exec i s = .next t) {a : Nat} (ha : ∀ sp', pushPointer s = .ok sp' → a ≠ sp'.toNat) :
    Memory.get t.mem a = Memory.get s.mem a := by
  refine of_exec (P := fun t => Memory.get t.mem a = Memory.get s.mem a) h (fun t hc => ?_) fun _ => rfl
  obtain hmem | ⟨-, sp, v, hsp, h0, hmem⟩ := hc.mem
  · rw [hmem]
  · have hne := ha _ (pushPointer_eq_ok.mpr ⟨sp, hsp, h0, rfl⟩)
    rw [sub_one_toNat] at hne
    rw [hmem, Memory.get_set_other _ _ hne]

/-- Only CMP changes FL. -/
theorem exec_fl (h : exec i s = .next t) (hi : i.opcode ≠ .cmp) : t.fl = s.fl :=
  of_exec (P := fun t => t.fl = s.fl) h (fun _ hc => hc.fl hi) fun _ => rfl

/-- Only PRN changes out. -/
theorem exec_out (h : exec i s = .next t) (hi : i.opcode ≠ .prn) : t.out = s.out :=
  of_exec (P := fun t => t.out = s.out) h (fun _ hc => hc.out hi) fun _ => rfl

/-- Only HLT and a fault change the status. -/
theorem exec_status (h : exec i s = .next t) (hi : i ≠ .hlt) : t.status = s.status ∨ t.isFaulted = true :=
  of_exec (P := fun t => t.status = s.status ∨ t.isFaulted = true) h
    (fun _ hc => .inl (hc.status.trans (if_neg hi))) fun _ => .inr rfl

end Exec

/-! ## The frames -/

/-- Settles O51: none of the six writes a register or memory; each other field has one writer among them. -/
theorem frameOfReaders : Obligations.FrameOfReaders := by
  intro s t r q k hk h
  have hop : k.opcode ∈ ([.hlt, .prn, .cmp, .jmp, .jeq, .jne] : List Opcode) := by revert k; simp [Instr.opcode]
  have hcmp : k.opcode = .cmp → k = .cmp r q := by revert k; simp [Instr.opcode]
  have hprn : k.opcode = .prn → k = .prn r := by revert k; simp [Instr.opcode]
  have hwrites : ∀ o ∈ ([.hlt, .prn, .cmp, .jmp, .jeq, .jne] : List Opcode),
      o ∉ writesOperand ∧ o ∉ movesSp ∧ o ∉ ([.push, .call] : List Opcode) := by decide
  obtain ⟨hd, h7, hm⟩ := hwrites _ hop
  exact ⟨Vector.ext fun j hj => exec_reg h ⟨j, hj⟩ (fun ho => absurd ho hd) fun ho => absurd ho h7,
    fun a => by rw [exec_mem h hm], fun hne => exec_fl h (mt hcmp hne), fun hne => exec_out h (mt hprn hne),
    exec_status h⟩

/-- Settles O52: each of the three writes the register its first operand names and nothing else. -/
theorem frameOfRegisterWriters : Obligations.FrameOfRegisterWriters := by
  intro s t r q k hk h
  have hop : k.opcode ∈ ([.ldi, .add, .mul] : List Opcode) := by revert k; simp [Instr.opcode]
  have hdst : k.operands.getD 0 0 = r := by revert k; simp [Instr.operands]
  have hwrites : ∀ o ∈ ([.ldi, .add, .mul] : List Opcode), o ∉ movesSp ∧ o ∉ ([.push, .call] : List Opcode) := by decide
  obtain ⟨h7, hm⟩ := hwrites _ hop
  refine ⟨fun j hj => exec_reg h j (fun _ e => hj ?_) fun ho => absurd ho h7, fun a => by rw [exec_mem h hm],
    exec_fl h (ne_of_mem_of_not_mem hop (by decide)), exec_out h (ne_of_mem_of_not_mem hop (by decide)),
    exec_status h (ne_of_apply_ne Instr.opcode (ne_of_mem_of_not_mem hop (by decide)))⟩
  rw [hdst] at e
  exact (eq_regByte.mpr e).symm

/-- Settles O53: POP writes the register its operand names and R7, RET only R7. -/
theorem frameOfPops : Obligations.FrameOfPops := by
  intro s t r k hk h
  have hop : k.opcode ∈ ([.pop, .ret] : List Opcode) := by revert k; simp [Instr.opcode]
  have hm : ∀ o ∈ ([.pop, .ret] : List Opcode), o ∉ ([.push, .call] : List Opcode) := by decide
  refine ⟨fun j h7 hj => exec_reg h j (fun ho e => ?_) fun _ => h7, fun a => by rw [exec_mem h (hm _ hop)],
    exec_fl h (ne_of_mem_of_not_mem hop (by decide)), exec_out h (ne_of_mem_of_not_mem hop (by decide)),
    exec_status h (ne_of_apply_ne Instr.opcode (ne_of_mem_of_not_mem hop (by decide)))⟩
  obtain rfl | rfl : k = .pop r ∨ k = .ret := by simpa using hk
  · exact hj.elim (fun hret => nomatch hret) fun hne => hne (eq_regByte.mpr e).symm
  · exact absurd ho (by decide)

/-- Settles O54: PUSH and CALL write R7 and the byte at the address the push computes. -/
theorem frameOfPushes : Obligations.FrameOfPushes := by
  intro s t r k hk h
  have hop : k.opcode ∈ ([.push, .call] : List Opcode) := by revert k; simp [Instr.opcode]
  have hwrites : ∀ o ∈ ([.push, .call] : List Opcode), o ∉ writesOperand := by decide
  exact ⟨fun j h7 => exec_reg h j (fun ho => absurd ho (hwrites _ hop)) fun _ => h7, fun a ha => exec_mem_get h ha,
    exec_fl h (ne_of_mem_of_not_mem hop (by decide)), exec_out h (ne_of_mem_of_not_mem hop (by decide)),
    exec_status h (ne_of_apply_ne Instr.opcode (ne_of_mem_of_not_mem hop (by decide)))⟩

/-! ## A step, field by field -/

/-- The first operand byte of an instruction at pc that has one. -/
theorem fetchByte_one_eq_getD {s : State} {i : Instr} (hb : s.bytesAtPc (encode i)) (ho : i.operands ≠ []) :
    s.fetchByte 1 = i.operands.getD 0 0 := by
  obtain ⟨a, l, hal⟩ := List.exists_cons_of_ne_nil ho
  rw [fetchByte_one hb hal, hal]
  rfl

/-- An opcode that writes the register its first operand names has an operand. -/
theorem operands_ne_nil {i : Instr} (ho : i.opcode ∈ writesOperand) : i.operands ≠ [] := by
  have hcount : ∀ o ∈ writesOperand, operandCount o.byte ≠ 0 := by decide
  intro hnil
  exact hcount _ ho (by rw [← operands_length, hnil]; rfl)

/-- Settles O23: a commit that changes FL is CMP's, and a fault changes none. -/
theorem onlyCompareWritesFlags : Obligations.OnlyCompareWritesFlags := by
  intro s t hstep hne
  obtain ⟨-, ⟨i, -, hb, hc, -⟩ | ⟨e, rfl⟩⟩ := step_cases hstep
  · have hcmp : i.opcode = .cmp := not_imp_comm.mp hc.fl hne
    rw [fetchByte_zero hb, hcmp]
    rfl
  · exact absurd rfl hne

/-- PRN commits its register's byte to the output. -/
theorem Commits.out_prn {r : Byte} {s t : State} (h : Commits (.prn r) s t) :
    ∃ k : Fin 8, r = regByte k ∧ t.out = s.out ++ [s.regs[k].value] := by
  obtain ⟨k, v, hk, hv, rfl⟩ := h
  exact ⟨k, eq_regByte.mpr hk, by rw [hv]⟩

/-- Settles O24: a commit of PRN appends, any other commit and every fault leaves out. -/
theorem onlyPrintEmits : Obligations.OnlyPrintEmits := by
  refine ⟨rfl, fun s t hstep => ?_⟩
  obtain ⟨-, ⟨i, -, hb, hc, hnf⟩ | ⟨e, rfl⟩⟩ := step_cases hstep
  · refine ⟨fun h0 _ => ?_, fun h => hc.out fun hprn => ?_⟩
    · rw [eq_assemble_of_fetchByte (o := .prn) hb h0] at hc
      exact hc.out_prn
    · obtain hne | hf := h
      · exact hne (by rw [fetchByte_zero hb, hprn]; rfl)
      · exact Bool.noConfusion (hf.symm.trans hnf)
  · exact ⟨fun _ hf => Bool.noConfusion (hf.symm.trans (takeFault_isFaulted s e)), fun _ => rfl⟩

/-- Settles O25: a commit that changes memory is that of PUSH or CALL, which set the one byte at SP - 1. -/
theorem onlyPushAndCallWriteMemory : Obligations.OnlyPushAndCallWriteMemory := by
  intro s t a hstep hne
  obtain ⟨-, ⟨i, -, hb, hc, -⟩ | ⟨e, rfl⟩⟩ := step_cases hstep
  · obtain hmem | ⟨ho, sp, v, hsp, h0, hmem⟩ := hc.mem
    · exact absurd (by rw [hmem]) hne
    · have ha : a = sp.toNat - 1 := by
        by_contra hother
        exact hne (by rw [hmem, Memory.get_set_other _ _ hother])
      refine ⟨?_, by rw [hsp]; dsimp only; omega⟩
      rw [fetchByte_zero hb]
      exact ho.imp (fun ho => by rw [ho]; rfl) fun ho => by rw [ho]; rfl
  · exact absurd rfl hne

/-- Settles O26: a commit that changes a register writes it as its operand or moves it as the stack pointer. -/
theorem registerWriters : Obligations.RegisterWriters := by
  intro s t j hstep hne
  obtain ⟨-, ⟨i, -, hb, hc, -⟩ | ⟨e, rfl⟩⟩ := step_cases hstep
  · rw [fetchByte_zero hb]
    by_cases hd : i.opcode ∈ writesOperand ∧ (i.operands.getD 0 0).toNat = j.val
    · obtain ⟨ho, hj⟩ := hd
      refine .inl ⟨List.mem_map_of_mem (f := Opcode.byte) ho, ?_⟩
      rw [fetchByte_one_eq_getD hb (operands_ne_nil ho)]
      exact eq_regByte.mpr hj
    · refine .inr (by_contra fun h7 => hne (hc.reg_eq j (fun ho hj => hd ⟨ho, hj⟩) fun ho hj => h7 ?_))
      exact ⟨List.mem_map_of_mem (f := Opcode.byte) ho, hj⟩
  · exact absurd rfl hne

end Sys2Proof.Machine
end

section
/-! PROOFS. What no instruction reads: G, L and NONE of the flags (10_state.md R26), and the byte an undefined register
carries (10_state.md R22, log entry 2). A step from a state that differs only there takes the same course. -/

namespace Sys2Proof.Machine

/-! ## Steps from states that differ in what is not read -/

/-- Fetch and decode read pc and memory alone. -/
theorem fetchDecode_congr {s s' : State} (hpc : s'.pc = s.pc) (hmem : s'.mem = s.mem) :
    fetchDecode s' = fetchDecode s := by
  cases s
  cases s'
  subst hpc hmem
  rfl

/-- Two states with the same status, pc and memory, whose instructions raise alike, step alike: both run the
instruction at pc to its commit, or both take the same fault. -/
theorem step_alike {s s' t : State} (hstatus : s'.status = s.status) (hpc : s'.pc = s.pc) (hmem : s'.mem = s.mem)
    (hraises : ∀ i e, Raises i s e → Raises i s' e) (h : step s = .next t) :
    (∃ i, Commits i s t ∧ ∀ t', Commits i s' t' → step s' = .next t') ∨
      ∃ e, t = takeFault s e ∧ step s' = .next (takeFault s' e) := by
  obtain ⟨hrun, hstep⟩ := step_next.mp h
  have hrun' := hstatus.trans hrun
  have hfetch := fetchDecode_congr hpc hmem
  obtain ⟨i, hw, hb, he⟩ | ⟨e, hf, rfl⟩ := hstep
  · have hexec : step s' = exec i s' := step_of_fetchDecode_ok hrun' (hfetch.trans (fetchDecode_eq_ok.mpr ⟨hw, hb⟩))
    obtain hc | ⟨e, hr, rfl⟩ := (exec_next i s t).mp he
    · exact .inl ⟨i, hc, fun t' hc' => hexec.trans (exec_of_commits hc')⟩
    · exact .inr ⟨e, rfl, hexec.trans (exec_of_raises (hraises i e hr))⟩
  · exact .inr ⟨e, rfl, step_of_fetchDecode_error hrun' (hfetch.trans hf)⟩

/-! ## G, L and NONE -/

/-- No check reads FL. -/
theorem raises_with_fl {i : Instr} {s : State} {e : Raise} (f : FlagState) (h : Raises i s e) :
    Raises i { s with fl := f } e := by
  cases i <;> exact h

/-- CMP commits the same state whatever FL was. -/
theorem commits_with_fl_cmp {i : Instr} {s t : State} (f : FlagState) (hi : i.opcode = .cmp) (h : Commits i s t) :
    Commits i { s with fl := f } t := by
  cases i
  case cmp => exact h
  all_goals exact absurd hi (by simp [Instr.opcode])

/-- Every other instruction commits the same state but for FL, which it keeps, where FL agrees on E. -/
theorem commits_with_fl {i : Instr} {s t : State} {f : FlagState} (hf : isEqual f = isEqual s.fl)
    (hi : i.opcode ≠ .cmp) (h : Commits i s t) : Commits i { s with fl := f } { t with fl := f } := by
  cases i <;> simp only [Commits] at h ⊢
  case cmp => exact absurd rfl hi
  case hlt => subst h; rfl
  case ldi => obtain ⟨k, hk, rfl⟩ := h; exact ⟨k, hk, rfl⟩
  case push => obtain ⟨k, sp, v, hk, hs, h0, hv, rfl⟩ := h; exact ⟨k, sp, v, hk, hs, h0, hv, rfl⟩
  case call => obtain ⟨k, sp, v, hk, hpc, hs, h0, hv, rfl⟩ := h; exact ⟨k, sp, v, hk, hpc, hs, h0, hv, rfl⟩
  case pop =>
    obtain ⟨k, sp, v, hk, hs, hv, ⟨h7, hle, rfl⟩ | ⟨h7, hle, rfl⟩⟩ := h
    · exact ⟨k, sp, v, hk, hs, hv, .inl ⟨h7, hle, rfl⟩⟩
    · exact ⟨k, sp, v, hk, hs, hv, .inr ⟨h7, hle, rfl⟩⟩
  case ret => obtain ⟨sp, v, hs, hv, hle, rfl⟩ := h; exact ⟨sp, v, hs, hv, hle, rfl⟩
  case add | mul => obtain ⟨j, k, p, q, hj, hk, hp, hq, rfl⟩ := h; exact ⟨j, k, p, q, hj, hk, hp, hq, rfl⟩
  case prn | jmp => obtain ⟨k, v, hk, hv, rfl⟩ := h; exact ⟨k, v, hk, hv, rfl⟩
  case jeq | jne => obtain ⟨k, v, hk, hv, rfl⟩ := h; exact ⟨k, v, hk, hv, by rw [hf]⟩

/-- Settles O30: a CMP ends in one and the same state; any other instruction and any fault keeps FL. -/
theorem greaterAndLessAreNotRead : Obligations.GreaterAndLessAreNotRead := by
  intro s t f hf hstep
  obtain ⟨i, hc, hstep'⟩ | ⟨e, rfl, hstep'⟩ :=
    step_alike (s := s) (s' := { s with fl := f }) rfl rfl rfl (fun _ _ => raises_with_fl f) hstep
  · by_cases hi : i.opcode = .cmp
    · exact ⟨t, hstep' t (commits_with_fl_cmp f hi hc), rfl, .inl rfl⟩
    · exact ⟨{ t with fl := f }, hstep' _ (commits_with_fl hf hi hc), rfl, .inr ⟨hc.fl hi, rfl⟩⟩
  · exact ⟨_, hstep', rfl, .inr ⟨rfl, rfl⟩⟩

/-! ## The byte of an undefined register -/

/-- The register file with another byte under the mark of register `i`, if that is undefined. -/
def hideByte (r : Vector RegCell 8) (i : Fin 8) (v : Byte) : Vector RegCell 8 :=
  if r[i].defined then r else r.set i ⟨v, false⟩

/-- `State.withUndefinedByte` changes the register file alone. -/
theorem withUndefinedByte_eq (s : State) (i : Fin 8) (v : Byte) :
    s.withUndefinedByte i v = { s with regs := hideByte s.regs i v } := by
  unfold State.withUndefinedByte hideByte
  split <;> rfl

/-- No mark changes. -/
theorem hideByte_defined (r : Vector RegCell 8) (i j : Fin 8) (v : Byte) :
    (hideByte r i v)[j].defined = r[j].defined := by
  unfold hideByte
  split
  · rfl
  · next hi =>
    by_cases e : j = i
    · subst e; rw [set_get]; exact ((Bool.not_eq_true _).mp hi).symm
    · rw [set_get_ne _ e]

/-- A register is a defined cell exactly where it was. -/
theorem hideByte_eq_defined {r : Vector RegCell 8} {i j : Fin 8} {v w : Byte} :
    (hideByte r i v)[j] = ⟨w, true⟩ ↔ r[j] = ⟨w, true⟩ := by
  unfold hideByte
  split
  · rfl
  · next hi =>
    by_cases e : j = i
    · subst e
      rw [set_get]
      exact ⟨fun h => by simp at h, fun h => absurd (congrArg RegCell.defined h) hi⟩
    · rw [set_get_ne _ e]

/-- A register write commutes with the hidden byte, which it overwrites where it is the same register. -/
theorem hideByte_set (r : Vector RegCell 8) (i j : Fin 8) (v w : Byte) :
    hideByte (r.set j ⟨w, true⟩) i v = (hideByte r i v).set j ⟨w, true⟩ := by
  unfold hideByte
  by_cases e : i = j
  · subst e
    rw [set_get, if_pos rfl]
    split
    · rfl
    · rw [Vector.set_set]
  · rw [set_get_ne _ e]
    split
    · rfl
    · exact Vector.set_comm _ _ fun hv => e (Fin.ext hv.symm)

/-! The same of R7, as the stack instructions read and write it. -/

theorem hideByte_seven_defined (r : Vector RegCell 8) (i : Fin 8) (v : Byte) :
    (hideByte r i v)[7].defined = r[7].defined := hideByte_defined r i 7 v

theorem hideByte_seven_eq_defined {r : Vector RegCell 8} {i : Fin 8} {v w : Byte} :
    (hideByte r i v)[7] = ⟨w, true⟩ ↔ r[7] = ⟨w, true⟩ := hideByte_eq_defined (j := 7)

theorem hideByte_set_seven (r : Vector RegCell 8) (i : Fin 8) (v w : Byte) :
    (hideByte r i v).set 7 ⟨w, true⟩ = hideByte (r.set 7 ⟨w, true⟩) i v := (hideByte_set r i 7 v w).symm

/-- No check reads the byte of an undefined register. -/
theorem raises_with_hidden {i : Instr} {s : State} {e : Raise} (j : Fin 8) (v : Byte) :
    Raises i { s with regs := hideByte s.regs j v } e ↔ Raises i s e := by
  cases i <;>
    simp only [Raises, RaisesRead, RaisesRead2, RaisesPush, RaisesPop, hideByte_defined,
      hideByte_seven_defined, hideByte_seven_eq_defined]

/-- No commit reads the byte of an undefined register. -/
theorem commits_with_hidden {i : Instr} {s t : State} (j : Fin 8) (v : Byte) (h : Commits i s t) :
    Commits i { s with regs := hideByte s.regs j v } { t with regs := hideByte t.regs j v } := by
  cases i <;>
    simp only [Commits, hideByte_eq_defined, hideByte_seven_eq_defined, hideByte_set_seven, ← hideByte_set] at h ⊢
  case hlt => subst h; rfl
  case ldi => obtain ⟨k, hk, rfl⟩ := h; exact ⟨k, hk, rfl⟩
  case push => obtain ⟨k, sp, w, hk, hs, h0, hw, rfl⟩ := h; exact ⟨k, sp, w, hk, hs, h0, hw, rfl⟩
  case call => obtain ⟨k, sp, w, hk, hpc, hs, h0, hw, rfl⟩ := h; exact ⟨k, sp, w, hk, hpc, hs, h0, hw, rfl⟩
  case pop =>
    obtain ⟨k, sp, w, hk, hs, hw, ⟨h7, hle, rfl⟩ | ⟨h7, hle, rfl⟩⟩ := h
    · exact ⟨k, sp, w, hk, hs, hw, .inl ⟨h7, hle, rfl⟩⟩
    · exact ⟨k, sp, w, hk, hs, hw, .inr ⟨h7, hle, rfl⟩⟩
  case ret => obtain ⟨sp, w, hs, hw, hle, rfl⟩ := h; exact ⟨sp, w, hs, hw, hle, rfl⟩
  case add | mul | cmp => obtain ⟨k, l, p, q, hk, hl, hp, hq, rfl⟩ := h; exact ⟨k, l, p, q, hk, hl, hp, hq, rfl⟩
  case prn | jmp | jeq | jne => obtain ⟨k, w, hk, hw, rfl⟩ := h; exact ⟨k, w, hk, hw, rfl⟩

/-- Settles O31: commits and faults are the same but for the hidden byte. -/
theorem undefinedRegisterByteIsNotRead : Obligations.UndefinedRegisterByteIsNotRead := by
  intro s t j v hstep
  simp only [withUndefinedByte_eq]
  obtain ⟨i, hc, hstep'⟩ | ⟨e, rfl, hstep'⟩ := step_alike (s := s)
    (s' := { s with regs := hideByte s.regs j v }) rfl rfl rfl (fun _ _ => (raises_with_hidden j v).mpr) hstep
  · exact hstep' _ (commits_with_hidden j v hc)
  · exact hstep'

end Sys2Proof.Machine
end

section
/-! PROOFS. The memory port (20_memory.md R43, R51, R56): the fetch only reads, each read returns the byte memory
holds, and what PUSH and CALL write is what the list says. -/

namespace Sys2Proof.Machine

/-! ## Reads -/

/-- Every access of the list is a read that returns the byte memory holds. -/
def ReadsOnly (s : State) (l : List Access) : Prop :=
  ∀ x ∈ l, ∃ a v, x = .read a v ∧ Memory.get s.mem a.toNat = some v

section ReadsOnly

variable {s : State}

theorem readsOnly_nil : ReadsOnly s [] := fun _ h => nomatch h

theorem ReadsOnly.append {l l' : List Access} (h : ReadsOnly s l) (h' : ReadsOnly s l') : ReadsOnly s (l ++ l') :=
  fun x hx => (List.mem_append.mp hx).elim (h x) (h' x)

/-- A read listed returns the byte memory holds. -/
theorem ReadsOnly.get_of_mem {l : List Access} (h : ReadsOnly s l) {a v : Byte} (hx : .read a v ∈ l) :
    Memory.get s.mem a.toNat = some v := by
  obtain ⟨b, w, hread, hget⟩ := h _ hx
  cases hread
  exact hget

/-- A read of the port, where the byte is defined, is the one access. -/
theorem readAccess_of_get {a : Nat} {v : Byte} (ha : a ≤ 255) (hv : Memory.get s.mem a = some v) :
    readAccess s a = [.read (BitVec.ofNat 8 a) v] := by
  rw [readAccess, hv]
  exact if_neg (Nat.not_lt.mpr ha)

theorem readsOnly_readAccess (a : Nat) : ReadsOnly s (readAccess s a) := by
  cases hv : Memory.get s.mem a with
  | none =>
    rw [readAccess, hv]
    exact readsOnly_nil
  | some v =>
    by_cases ha : a ≤ 255
    · have htoNat : (BitVec.ofNat 8 a).toNat = a := by rw [BitVec.toNat_ofNat]; omega
      rw [readAccess_of_get ha hv]
      intro x hx
      exact ⟨_, v, List.mem_singleton.mp hx, htoNat.symm ▸ hv⟩
    · rw [readAccess, hv]
      simp only [if_pos (Nat.lt_of_not_le ha)]
      exact readsOnly_nil

/-- The fetch reads: the opcode, and the operands that its checks reach (20_memory.md R51, items 1 and 2). -/
theorem readsOnly_fetchAccesses : ReadsOnly s (fetchAccesses s) := by
  have readIf (c : Prop) [Decidable c] (a : Nat) : ReadsOnly s (if c then readAccess s a else []) := by
    split
    · exact readsOnly_readAccess a
    · exact readsOnly_nil
  unfold fetchAccesses
  split
  · exact readsOnly_nil
  · refine (readsOnly_readAccess _).append ?_
    split
    · exact readsOnly_nil
    · split
      · exact readsOnly_nil
      · exact (readIf _ _).append (readIf _ _)

/-- Of the rules, only those of PUSH and CALL write (20_memory.md R43). -/
theorem readsOnly_ruleAccesses {i : Instr} (hi : i.opcode ∉ ([.push, .call] : List Opcode)) :
    ReadsOnly s (ruleAccesses i s) := by
  cases i with
  | push | call => exact absurd hi (by simp [Instr.opcode])
  | pop | ret =>
    simp only [ruleAccesses]
    split
    · exact readsOnly_readAccess _
    · exact readsOnly_nil
  | hlt | ldi | prn | mul | add | cmp | jmp | jeq | jne => exact readsOnly_nil

/-- Every read of a rule returns the byte memory holds: PUSH and CALL read none. -/
theorem get_of_read_mem_ruleAccesses {i : Instr} {a v : Byte} (h : Access.read a v ∈ ruleAccesses i s) :
    Memory.get s.mem a.toNat = some v := by
  by_cases hi : i.opcode ∈ ([.push, .call] : List Opcode)
  · cases i with
    | push | call =>
      simp only [ruleAccesses] at h
      split at h <;> simp at h
    | hlt | ldi | prn | mul | add | pop | ret | cmp | jmp | jeq | jne => exact absurd hi (by simp [Instr.opcode])
  · exact (readsOnly_ruleAccesses hi).get_of_mem h

end ReadsOnly

/-! ## Writes -/

/-- Reads leave memory as it is. -/
theorem applyWrites_of_readsOnly {s : State} {l : List Access} (m : Memory) (h : ReadsOnly s l) :
    applyWrites m l = m := by
  induction l with
  | nil => rfl
  | cons x rest ih =>
    obtain ⟨a, v, rfl, -⟩ := h x (List.mem_cons_self ..)
    exact ih fun y hy => h y (List.mem_cons_of_mem _ hy)

/-- Accesses that follow reads write as they would alone. -/
theorem applyWrites_append_of_readsOnly {s : State} {l : List Access} (m : Memory) (l' : List Access)
    (h : ReadsOnly s l) : applyWrites m (l ++ l') = applyWrites m l' := by
  induction l with
  | nil => rfl
  | cons x rest ih =>
    obtain ⟨a, v, rfl, -⟩ := h x (List.mem_cons_self ..)
    exact ih fun y hy => h y (List.mem_cons_of_mem _ hy)

/-- PUSH leaves memory as its accesses write it: the pushed byte where it commits, nothing where it raises. -/
theorem mem_of_exec_push {r : Byte} {s t : State} (h : exec (.push r) s = .next t) :
    t.mem = applyWrites s.mem (ruleAccesses (.push r) s) := by
  obtain ⟨k, sp, v, hk, hsp, h0, hv, rfl⟩ | ⟨e, hr, rfl⟩ := (exec_next _ s t).mp h
  · rw [ruleAccesses, pushChecks_eq_ok.mpr ⟨k, sp, v, hk, hsp, h0, hv, rfl⟩]
    simp only [applyWrites, sub_one_toNat]
  · rw [ruleAccesses, pushChecks_eq_error.mpr hr]
    rfl

/-- CALL leaves memory as its accesses write it: the return address where it commits, nothing where it raises. -/
theorem mem_of_exec_call {r : Byte} {s t : State} (h : exec (.call r) s = .next t) :
    t.mem = applyWrites s.mem (ruleAccesses (.call r) s) := by
  obtain ⟨k, sp, v, hk, hpc, hsp, h0, hv, rfl⟩ | ⟨e, hr, rfl⟩ := (exec_next _ s t).mp h
  · rw [ruleAccesses, callChecks_eq_ok.mpr ⟨k, sp, v, hk, hpc, hsp, h0, hv, rfl⟩]
    simp only [applyWrites, sub_one_toNat]
  · rw [ruleAccesses, callChecks_eq_error.mpr hr]
    rfl

/-- Every execution leaves memory as the accesses of its rule write it. -/
theorem mem_of_exec {i : Instr} {s t : State} (h : exec i s = .next t) :
    t.mem = applyWrites s.mem (ruleAccesses i s) := by
  by_cases hi : i.opcode ∈ ([.push, .call] : List Opcode)
  · cases i with
    | push => exact mem_of_exec_push h
    | call => exact mem_of_exec_call h
    | hlt | ldi | prn | mul | add | pop | ret | cmp | jmp | jeq | jne => exact absurd hi (by simp [Instr.opcode])
  · rw [exec_mem h hi, applyWrites_of_readsOnly _ (readsOnly_ruleAccesses hi)]

/-! ## The port over a step -/

/-- A step's accesses are those of its fetch and then those of the rule it runs, if any, which write what the step
writes and read what memory holds. -/
theorem stepAccesses_of_step {s t : State} (h : step s = .next t) :
    ∃ rule, stepAccesses s = fetchAccesses s ++ rule ∧ t.mem = applyWrites s.mem rule ∧
      ∀ a v, Access.read a v ∈ rule → Memory.get s.mem a.toNat = some v := by
  obtain ⟨hrun, ⟨i, hw, hb, he⟩ | ⟨e, hf, rfl⟩⟩ := step_next.mp h
  · refine ⟨ruleAccesses i s, ?_, mem_of_exec he, fun a v => get_of_read_mem_ruleAccesses⟩
    rw [stepAccesses, hrun, fetchDecode_eq_ok.mpr ⟨hw, hb⟩]
  · refine ⟨[], ?_, rfl, fun a v hx => nomatch hx⟩
    rw [stepAccesses, hrun, hf]

/-- The first access of a fetch that finds an opcode byte is the read of that byte. -/
theorem exists_fetchAccesses_eq_cons {s : State} {ir : Byte} (hpc : s.pc ≤ 255)
    (hir : Memory.get s.mem s.pc = some ir) :
    ∃ rest, fetchAccesses s = .read (BitVec.ofNat 8 s.pc) ir :: rest := by
  rw [fetchAccesses, fetchOpcode_eq_ok.mpr ⟨hpc, hir⟩, readAccess_of_get hpc hir]
  exact ⟨_, rfl⟩

/-- Settles O28: the fetch only reads, so what the step writes is what its rule's accesses write. -/
theorem portAccountsForMemory : Obligations.PortAccountsForMemory := by
  intro s t hstep
  obtain ⟨rule, haccesses, hmem, hreads⟩ := stepAccesses_of_step hstep
  refine ⟨?_, fun hpc ir hir => ?_, fun a v hx => ?_⟩
  · rw [haccesses, applyWrites_append_of_readsOnly _ _ readsOnly_fetchAccesses, hmem]
  · obtain ⟨rest, hfetch⟩ := exists_fetchAccesses_eq_cons hpc hir
    rw [haccesses, hfetch]
    rfl
  · rw [haccesses, List.mem_append] at hx
    obtain hx | hx := hx
    · exact readsOnly_fetchAccesses.get_of_mem hx
    · exact hreads a v hx

end Sys2Proof.Machine
end

section
/-! PROOFS. A step takes the first check that fails, in the order of 60_exceptions.md R153: the checks of each
instruction's rule are read along `ruleChecks`, and those of the fetch along `fetchChecks`, `operandChecks` and the
register fields. -/

namespace Sys2Proof.Machine

/-! ## The checks of a rule, read in their order -/

/-- The instruction raises the first check of `checks` that fails; where none fails, it commits. -/
def RaisesFirst (i : Instr) (s : State) (checks : List Check) : Prop :=
  match firstFailing checks with
  | some c => Raises i s ⟨c.kind, c.info⟩
  | none => ∃ t, Commits i s t

section RaisesFirst

variable {i : Instr} {s t : State} {c : Check} {cs : List Check}

/-- No check is left: the instruction commits. -/
theorem raisesFirst_nil (h : Commits i s t) : RaisesFirst i s [] := ⟨t, h⟩

/-- The head is raised where it fails, and else the rest is read. -/
theorem raisesFirst_cons (hfails : c.fails = true → Raises i s ⟨c.kind, c.info⟩)
    (hpasses : c.fails = false → RaisesFirst i s cs) : RaisesFirst i s (c :: cs) := by
  unfold RaisesFirst
  cases hc : c.fails with
  | true => rw [firstFailing_of_fails hc]; exact hfails hc
  | false => rw [firstFailing_of_passes hc]; exact hpasses hc

/-- The read of the register that an operand byte names is a check. -/
theorem raisesFirst_defined {b : Byte} {k : Fin 8} (hk : b.toNat = k.val)
    (hfails : s.regs[k].defined = false → Raises i s (raiseUninitRegister k))
    (hpasses : ∀ v, s.regs[k] = ⟨v, true⟩ → RaisesFirst i s cs) : RaisesFirst i s (definedCheck s b :: cs) := by
  rw [definedCheck_eq hk]
  refine raisesFirst_cons (fun h => hfails ?_) fun h => hpasses _ (cell_of_defined ?_)
  · simpa using h
  · simpa using h

/-- The read of SP is a check (log entry 9). -/
theorem raisesFirst_sp (hfails : s.regs[7].defined = false → Raises i s (raiseUninitRegister 7))
    (hpasses : ∀ sp, s.regs[7] = ⟨sp, true⟩ → RaisesFirst i s cs) : RaisesFirst i s (definedCheck s 7 :: cs) :=
  raisesFirst_defined (k := 7) rfl hfails hpasses

/-- The rule of a one-register instruction that reads the register has that one check. -/
theorem raisesFirst_read {r : Byte} (hr : isReg r = true) (hraises : ∀ e, RaisesRead r s e → Raises i s e)
    (hcommits : ∀ (k : Fin 8) (v : Byte), r.toNat = k.val → s.regs[k] = ⟨v, true⟩ → ∃ t, Commits i s t) :
    RaisesFirst i s [definedCheck s r] := by
  obtain ⟨k, rfl⟩ := exists_regByte_of_isReg hr
  refine raisesFirst_defined (regByte_toNat k) (fun hk => hraises _ (.inr ⟨k, regByte_toNat k, hk, rfl⟩)) fun v hv => ?_
  obtain ⟨t, ht⟩ := hcommits k v (regByte_toNat k) hv
  exact raisesFirst_nil ht

/-- The rule of ADD, MUL and CMP has two, op1 before op2. -/
theorem raisesFirst_read2 {a b : Byte} (ha : isReg a = true) (hb : isReg b = true)
    (hraises : ∀ e, RaisesRead2 a b s e → Raises i s e)
    (hcommits : ∀ (j k : Fin 8) (p q : Byte), a.toNat = j.val → b.toNat = k.val → s.regs[j] = ⟨p, true⟩ →
      s.regs[k] = ⟨q, true⟩ → ∃ t, Commits i s t) :
    RaisesFirst i s [definedCheck s a, definedCheck s b] := by
  obtain ⟨j, rfl⟩ := exists_regByte_of_isReg ha
  obtain ⟨k, rfl⟩ := exists_regByte_of_isReg hb
  have hj := regByte_toNat j
  have hk := regByte_toNat k
  refine raisesFirst_defined hj (fun hu => hraises _ (.inr (.inr ⟨j, k, hj, hk, .inl ⟨hu, rfl⟩⟩))) fun p hp => ?_
  have hdefined : s.regs[j].defined = true := congrArg RegCell.defined hp
  refine raisesFirst_defined hk (fun hu => hraises _ (.inr (.inr ⟨j, k, hj, hk, .inr ⟨hdefined, hu, rfl⟩⟩)))
    fun q hq => ?_
  obtain ⟨t, ht⟩ := hcommits j k p q hj hk hp hq
  exact raisesFirst_nil ht

/-- A push checks SP, its limit, and then the register, which for R7 is the new SP and needs no check of its own. -/
theorem raisesFirst_push {k : Fin 8} (hraises : ∀ e, RaisesPush k s e → Raises i s e)
    (hcommits : ∀ sp v : Byte, s.regs[7] = ⟨sp, true⟩ → sp.toNat ≠ 0 →
      ((k = 7 ∧ v = BitVec.ofNat 8 (sp.toNat - 1)) ∨ (k ≠ 7 ∧ s.regs[k] = ⟨v, true⟩)) → ∃ t, Commits i s t) :
    RaisesFirst i s [definedCheck s 7, pushCheck s, definedCheck s (regByte k)] := by
  refine raisesFirst_sp (fun hu => hraises _ (.inl ⟨hu, rfl⟩)) fun sp hsp => ?_
  have hvalue : s.regs[Config.spIndex].value = sp := congrArg RegCell.value hsp
  rw [pushCheck, hvalue]
  refine raisesFirst_cons (fun h0 => hraises _ (.inr (.inl ⟨?_, rfl⟩))) fun h0 => ?_
  · obtain rfl : sp = 0 := eq_of_beq h0
    exact hsp
  · have hsp0 : sp.toNat ≠ 0 := fun hz => ne_of_beq_false h0 (BitVec.eq_of_toNat_eq hz)
    refine raisesFirst_defined (regByte_toNat k) (fun hu => hraises _ (.inr (.inr ⟨sp, hsp, hsp0, ?_, hu, rfl⟩)))
      fun v hv => ?_
    · rintro rfl
      exact Bool.noConfusion (hu.symm.trans (congrArg RegCell.defined hsp))
    · obtain ⟨t, ht⟩ := hcommits sp _ hsp hsp0 (read_after_push _ hv)
      exact raisesFirst_nil ht

/-- A pop checks SP, the byte there, and then that the new SP, one more than `base sp v`, is in range. -/
theorem raisesFirst_pop {base : Byte → Byte → Byte} (hraises : ∀ e, RaisesPop base s e → Raises i s e)
    (hcommits : ∀ sp v : Byte, s.regs[7] = ⟨sp, true⟩ → Memory.get s.mem sp.toNat = some v → (base sp v).toNat ≤ 254 →
      ∃ t, Commits i s t) :
    RaisesFirst i s [definedCheck s 7, stackReadCheck s, popCheck (base s.regs[Config.spIndex].value
      ((Memory.get s.mem s.regs[Config.spIndex].value.toNat).getD 0))] := by
  refine raisesFirst_sp (fun hu => hraises _ (.inl ⟨hu, rfl⟩)) fun sp hsp => ?_
  have hvalue : s.regs[Config.spIndex].value = sp := congrArg RegCell.value hsp
  rw [stackReadCheck, hvalue]
  refine raisesFirst_cons
    (fun hnone => hraises _ (.inr ⟨sp, hsp, .inl ⟨Option.isNone_iff_eq_none.mp hnone, rfl⟩⟩)) fun hsome => ?_
  obtain ⟨v, hv⟩ := Option.isSome_iff_exists.mp (Option.isNone_eq_false_iff.mp hsome)
  rw [hv, Option.getD_some]
  refine raisesFirst_cons (fun h255 => hraises _ (.inr ⟨sp, hsp, .inr ⟨v, hv, ?_, rfl⟩⟩)) fun hne => ?_
  · exact congrArg BitVec.toNat (eq_of_beq h255)
  · have hlt := (base sp v).isLt
    have hne : (base sp v).toNat ≠ 255 := fun h => ne_of_beq_false hne (BitVec.eq_of_toNat_eq h)
    obtain ⟨t, ht⟩ := hcommits sp v hsp hv (by omega)
    exact raisesFirst_nil ht

end RaisesFirst

/-- `regByte k` is 7 exactly for R7. -/
theorem regByte_eq_seven {k : Fin 8} : regByte k = 7 ↔ k = 7 :=
  ⟨fun h => Fin.ext (eq_regByte.mp h.symm).symm, fun h => h ▸ rfl⟩

/-- Every well-formed instruction raises the first check of its rule that fails, and commits where none does. -/
theorem raisesFirst_ruleChecks {o : Opcode} {a b : Byte} (s : State) (hw : (o.assemble a b).WellFormed) :
    RaisesFirst (o.assemble a b) s (ruleChecks o a b s) := by
  cases o with
  | hlt => exact raisesFirst_nil rfl
  | ldi => exact raisesFirst_nil (commits_ldi s hw)
  | prn | jmp | jeq | jne => exact raisesFirst_read hw (fun _ he => he) fun k v hk hv => ⟨_, k, v, hk, hv, rfl⟩
  | mul | add | cmp =>
    obtain ⟨ha, hb⟩ := Bool.and_eq_true_iff.mp hw
    exact raisesFirst_read2 ha hb (fun _ he => he) fun j k p q hj hk hp hq => ⟨_, j, k, p, q, hj, hk, hp, hq, rfl⟩
  | push =>
    obtain ⟨k, rfl⟩ := exists_regByte_of_isReg hw
    exact raisesFirst_push (fun _ he => .inr ⟨k, regByte_toNat k, he⟩)
      fun sp v hsp h0 hv => ⟨_, k, sp, v, regByte_toNat k, hsp, h0, hv, rfl⟩
  | call =>
    obtain ⟨k, rfl⟩ := exists_regByte_of_isReg hw
    refine raisesFirst_cons (fun hout => .inr ⟨k, regByte_toNat k, .inl ⟨?_, rfl⟩⟩) fun hin => ?_
    · have hout : s.pc + 2 > 255 := of_decide_eq_true hout
      omega
    · have hin : ¬ s.pc + 2 > 255 := of_decide_eq_false hin
      have hpc : s.pc ≤ 253 := by omega
      exact raisesFirst_push (fun _ he => .inr ⟨k, regByte_toNat k, .inr ⟨hpc, he⟩⟩)
        fun sp v hsp h0 hv => ⟨_, k, sp, v, regByte_toNat k, hpc, hsp, h0, hv, rfl⟩
  | pop =>
    obtain ⟨k, rfl⟩ := exists_regByte_of_isReg hw
    simp only [ruleChecks, regByte_eq_seven]
    refine raisesFirst_pop (base := fun sp v => if k = 7 then v else sp) (fun _ he => .inr ⟨k, regByte_toNat k, he⟩)
      fun sp v hsp hv hle => ?_
    by_cases hk : k = 7
    · rw [if_pos hk] at hle
      exact ⟨_, k, sp, v, regByte_toNat k, hsp, hv, .inl ⟨hk, hle, rfl⟩⟩
    · rw [if_neg hk] at hle
      exact ⟨_, k, sp, v, regByte_toNat k, hsp, hv, .inr ⟨hk, hle, rfl⟩⟩
  | ret =>
    exact raisesFirst_pop (base := fun sp _ => sp) (fun _ he => he) fun sp v hsp hv hle => ⟨_, sp, v, hsp, hv, hle, rfl⟩

/-! ## The checks of a step -/

/-- The step takes the first check of `checks` that fails; where none fails, it ends unfaulted. -/
def StepsFirst (s : State) (checks : List Check) : Prop :=
  match firstFailing checks with
  | some c => step s = .next (s.faultedWith c.kind c.info)
  | none => ∃ t, step s = .next t ∧ t.isFaulted = false

/-- A check that passes may be left out. -/
theorem firstFailing_skip {c : Check} (cs ds : List Check) (h : c.fails = false) :
    firstFailing (cs ++ [c] ++ ds) = firstFailing (cs ++ ds) := by
  simp only [firstFailing_append, firstFailing_of_passes h, firstFailing_nil, Option.or_none]

/-- From Running, a commit ends unfaulted. -/
theorem Commits.not_faulted {i : Instr} {s t : State} (h : Commits i s t) (hs : s.status = .running) :
    t.isFaulted = false := by
  have hst := h.status
  rw [hs] at hst
  unfold State.isFaulted
  split at hst <;> rw [hst]

/-- A step reads the checks of its fetch, and then those of the rule it runs. -/
theorem stepsFirst_append {s : State} {i : Instr} {cs ds : List Check} (hs : s.status = .running)
    (h : Answers (fetchDecode s) cs i) (hrule : fetchDecode s = .ok i → RaisesFirst i s ds) :
    StepsFirst s (cs ++ ds) := by
  rw [Answers] at h
  rw [StepsFirst, firstFailing_append]
  cases hcs : firstFailing cs with
  | some c =>
    rw [hcs] at h
    exact step_of_fetchDecode_error hs h
  | none =>
    rw [hcs] at h
    have hraises := hrule h
    rw [RaisesFirst] at hraises
    rw [Option.none_or, step_of_fetchDecode_ok hs h]
    cases hds : firstFailing ds with
    | some c =>
      rw [hds] at hraises
      exact exec_of_raises hraises
    | none =>
      rw [hds] at hraises
      obtain ⟨t, ht⟩ := hraises
      exact ⟨t, exec_of_commits ht, ht.not_faulted hs⟩

/-- An illegal opcode byte is raised once its fetch has passed (60_exceptions.md R153 item 3). -/
theorem stepsFirst_of_lookup_eq_none {s : State} (hs : s.status = .running) (hl : lookup (s.fetchByte 0) = none) :
    StepsFirst s (stepChecks s) := by
  have hfetch := fetchOpcode_answers s
  rw [Answers] at hfetch
  rw [StepsFirst, stepChecks]
  simp only [hl, List.append_nil, firstFailing_append]
  cases hcs : firstFailing (fetchChecks s) with
  | some c =>
    rw [hcs] at hfetch
    exact step_of_fetchDecode_error hs (by rw [fetchDecode, hfetch]; rfl)
  | none =>
    rw [hcs] at hfetch
    exact step_of_fetchDecode_error hs (fetchDecode_of_lookup_eq_none hfetch hl)

/-- The checks of the operand fetches of a format (60_exceptions.md R153 item 4). -/
def operandFetchChecks (f : Format) (s : State) : List Check :=
  match f with
  | .N => []
  | .R => operandChecks s 1
  | .RR => operandChecks s 1 ++ operandChecks s 2
  | .RI => operandChecks s 1 ++ operandChecks s 2

/-- An opcode whose format has one operand ignores the second. -/
theorem assemble_of_format_R {o : Opcode} (h : o.format = .R) (a b c : Byte) : o.assemble a b = o.assemble a c := by
  cases o with
  | prn | push | pop | call | jmp | jeq | jne => rfl
  | hlt | ldi | mul | add | ret | cmp => exact absurd h (by decide)

/-- An opcode whose format has no operand ignores both. -/
theorem assemble_of_format_N {o : Opcode} (h : o.format = .N) (a b c d : Byte) : o.assemble a b = o.assemble c d := by
  cases o with
  | hlt | ret => rfl
  | ldi | prn | mul | add | push | pop | call | cmp | jmp | jeq | jne => exact absurd h (by decide)

/-- The fetch and decode of a known opcode go by items 1, 2, 4 and 5 of 60_exceptions.md R153; item 3 passes. -/
theorem fetchDecode_answers {s : State} {o : Opcode} (h : fetchesOnly s o.byte) :
    Answers (fetchDecode s)
      (fetchChecks s ++ (operandFetchChecks o.format s ++
        (o.format.registerFields (s.fetchByte 1) (s.fetchByte 2)).map fieldCheck))
      (o.assemble (s.fetchByte 1) (s.fetchByte 2)) := by
  have hcount := operandCount_byte o
  cases hformat : o.format with
  | N =>
    rw [hformat] at hcount
    have latch_one : latchOperand s o.byte 1 = .ok 0 := by rw [latchOperand, hcount, if_neg (by decide)]
    have latch_two : latchOperand s o.byte 2 = .ok 0 := by rw [latchOperand, hcount, if_neg (by decide)]
    rw [fetchDecode_of_fetchesOnly h, latch_one, latch_two, hformat, assemble_of_format_N hformat _ _ 0 0]
    exact (fetchOpcode_answers s).bind (fieldsChecked_answers [] _)
  | R =>
    rw [assemble_of_format_R hformat _ _ 0, ← List.append_assoc]
    exact fetchDecode_answers_of_register_operand h hformat
  | RR | RI =>
    have hall := fetchDecode_answers_of_two_operands h (by rw [hcount, hformat])
    rw [hformat] at hall
    simpa only [operandFetchChecks, List.append_assoc] using hall

/-- A known opcode's checks are those of its fetch, of its fields and of its rule; item 3 passes. -/
theorem stepsFirst_of_lookup_eq_some {s : State} {o : Opcode} (hs : s.status = .running)
    (hl : lookup (s.fetchByte 0) = some o) : StepsFirst s (stepChecks s) := by
  have hfetch : fetchesOnly s o.byte := fun _ b hb => (fetchByte_of_get hb).symm.trans (lookup_eq_some.mp hl)
  have hall := stepsFirst_append hs (fetchDecode_answers hfetch) fun hf =>
    raisesFirst_ruleChecks s (fetchDecode_eq_ok.mp hf).1
  rw [StepsFirst, stepChecks, hl, firstFailing_skip _ _ rfl]
  rw [StepsFirst, List.append_assoc] at hall
  exact hall

/-- Settles O19: whether the opcode byte is known or not, the step reads its checks in their order. -/
theorem firstFailingCheckIsTaken : Obligations.FirstFailingCheckIsTaken := by
  intro s hs
  cases hl : lookup (s.fetchByte 0) with
  | none => exact stepsFirst_of_lookup_eq_none hs hl
  | some o => exact stepsFirst_of_lookup_eq_some hs hl

end Sys2Proof.Machine
end
